-- ==== Sys2Proof/Word.lean ====
section
/-! DEFINITION. The machine's words (00_scope.md R5, R10, R11): bytes, 16-bit words, the fields of an instruction
word, and the names of the sixteen general registers. Bit 0 is the least significant bit. -/

namespace Sys2Proof

/-- An unsigned 8-bit value: a general register, a timer, a byte of memory (R5 V_WIDTH, TIMER_WIDTH). -/
abbrev Byte := BitVec 8

/-- An unsigned 16-bit value: an instruction word, pc, I, a return address (R5 PC_WIDTH, I_WIDTH,
STACK_ENTRY_WIDTH, INSTR_BYTES). -/
abbrev Word := BitVec 16

/-- A 4-bit field of an instruction word (R10). -/
abbrev Nibble := BitVec 4

/-- The 12-bit address field nnn of an instruction word (R10). -/
abbrev Addr12 := BitVec 12

/-- The number of a general register, 0 to 15 (R5 NUM_V, 10_state.md R16). -/
abbrev Reg := Fin 16

/-- The flag register's number (R5 FLAG_REG, 10_state.md R17). -/
abbrev VF : Reg := 15

end Sys2Proof
end

