-- ==== Sys2Proof/Machine/Flags.lean ====
section
/-! DEFINITION. Every value that an instruction writes to VF as a flag (10_state.md R17, R32; 41_alu.md R83). -/

namespace Sys2Proof.Machine

/-- A condition as a flag: 1 or 0. -/
def flagOf (c : Bool) : Byte := if c then 1 else 0

/-- Carry out of an 8-bit sum (R77). -/
def carryFlag (a b : Byte) : Byte := flagOf (decide (a.toNat + b.toNat > 255))

/-- NOT borrow of a - b: 1 when a ≥ b (R78, R79). -/
def noBorrowFlag (a b : Byte) : Byte := flagOf (decide (a.toNat ≥ b.toNat))

/-- The least significant bit, shifted out to the right (R80). -/
def lsbFlag (a : Byte) : Byte := flagOf (a.getLsbD 0)

/-- The most significant bit, shifted out to the left (R81). -/
def msbFlag (a : Byte) : Byte := flagOf (a.getLsbD 7)

/-- Collision of a draw (43_display.md R93). -/
def collisionFlag (c : Bool) : Byte := flagOf c

end Sys2Proof.Machine
end

