-- ==== Sys2Proof/Syntax.lean ====
section
/-! DEFINITION. The instructions as syntax: one constructor per row of spec/opcode_table.json (30_encoding.md R51,
R57, R58), the four reserved rows included. Operands are the fields x, y (register numbers), n, kk, nnn of R49.
A constructor keeps every bit of its word: the nibble that classes 5 and 9 do not decode and the operand bits of a
reserved word are fields too (DESIGN CHOICE, safe, log 10), so no bit of an encoding is dropped. -/

namespace Sys2Proof

/-- An instruction (00_scope.md R2: 34 instructions; 30_encoding.md R58: the reserved no-op). -/
inductive Instr where
  /-- `00E0`: clear the framebuffer (R92). -/
  | cls
  /-- `00EE`: return from subroutine (R62). -/
  | ret
  /-- `1nnn`: jump (R63). -/
  | jp (nnn : Addr12)
  /-- `2nnn`: call subroutine (R64). -/
  | call (nnn : Addr12)
  /-- `3xkk`: skip if equal to immediate (R66). -/
  | seImm (x : Reg) (kk : Byte)
  /-- `4xkk`: skip if not equal to immediate (R67). -/
  | sneImm (x : Reg) (kk : Byte)
  /-- `5xy0`: skip if registers equal; the low nibble u is not decoded (R53) (R68). -/
  | seReg (x y : Reg) (u : Nibble)
  /-- `6xkk`: load immediate (R71). -/
  | ldImm (x : Reg) (kk : Byte)
  /-- `7xkk`: add immediate (R72). -/
  | addImm (x : Reg) (kk : Byte)
  /-- `8xy0`: copy (R73). -/
  | ldReg (x y : Reg)
  /-- `8xy1`: OR (R74). -/
  | orReg (x y : Reg)
  /-- `8xy2`: AND (R75). -/
  | andReg (x y : Reg)
  /-- `8xy3`: XOR (R76). -/
  | xorReg (x y : Reg)
  /-- `8xy4`: add with carry out (R77). -/
  | addReg (x y : Reg)
  /-- `8xy5`: subtract y from x (R78). -/
  | subReg (x y : Reg)
  /-- `8xy6`: shift right by one (R80). -/
  | shr (x y : Reg)
  /-- `8xy7`: subtract x from y (R79). -/
  | subnReg (x y : Reg)
  /-- `8xyE`: shift left by one (R81). -/
  | shl (x y : Reg)
  /-- `9xy0`: skip if registers differ; the low nibble u is not decoded (R53) (R69). -/
  | sneReg (x y : Reg) (u : Nibble)
  /-- `Annn`: load index (R84). -/
  | ldI (nnn : Addr12)
  /-- `Bnnn`: jump with offset V0 (R65). -/
  | jpV0 (nnn : Addr12)
  /-- `Cxkk`: random byte masked (R82). -/
  | rnd (x : Reg) (kk : Byte)
  /-- `Dxyn`: draw an n-row sprite (R93). -/
  | drw (x y : Reg) (n : Nibble)
  /-- `Ex9E`: skip if key pressed (R98). -/
  | skp (x : Reg)
  /-- `ExA1`: skip if key released (R99). -/
  | sknp (x : Reg)
  /-- `Fx07`: read delay timer (R95). -/
  | ldVxDt (x : Reg)
  /-- `Fx0A`: wait for a key press, by re-issue (R100). -/
  | ldVxK (x : Reg)
  /-- `Fx15`: set delay timer (R96). -/
  | ldDtVx (x : Reg)
  /-- `Fx18`: set sound timer (R97). -/
  | ldStVx (x : Reg)
  /-- `Fx1E`: add to index (R85). -/
  | addI (x : Reg)
  /-- `Fx29`: point index at a font glyph (R86). -/
  | ldF (x : Reg)
  /-- `Fx33`: store binary-coded decimal (R87). -/
  | ldB (x : Reg)
  /-- `Fx55`: store registers V0 to Vx (R88). -/
  | stRegs (x : Reg)
  /-- `Fx65`: load registers V0 to Vx (R89). -/
  | ldRegs (x : Reg)
  /-- `NOP_class_0`: reserved no-op, class 0 except 0x00E0 and 0x00EE (R58). -/
  | nop0 (nnn : Addr12)
  /-- `NOP_class_8`: reserved no-op, class 8 with u in 8, 9, A, B, C, D, F (R58). -/
  | nop8 (x y : Reg) (u : Nibble)
  /-- `NOP_class_E`: reserved no-op, class E with kk other than 9E, A1 (R58). -/
  | nopE (x : Reg) (kk : Byte)
  /-- `NOP_class_F`: reserved no-op, class F with kk outside the nine values of R56 (R58). -/
  | nopF (x : Reg) (kk : Byte)
  deriving DecidableEq, Repr

end Sys2Proof
end

