-- ==== Sys2Proof/WellFormed.lean ====
section
/-! DEFINITION. Which instruction terms are instructions of the machine. Every operand field has the width of its
encoding field by its type (30_encoding.md R49), so the only checks are those of the reserved rows: a reserved no-op's
word is one that no instruction of its class takes (R52, R54, R55, R56, R58). -/

namespace Sys2Proof

/-- The sub-opcodes n that class 8 leaves reserved (R54). -/
def reserved8 (u : Nibble) : Bool :=
  u = 0x8 || u = 0x9 || u = 0xA || u = 0xB || u = 0xC || u = 0xD || u = 0xF

/-- The sub-opcodes kk that class E leaves reserved (R55). -/
def reservedE (kk : Byte) : Bool :=
  !(kk = 0x9E || kk = 0xA1)

/-- The sub-opcodes kk that class F leaves reserved (R56). -/
def reservedF (kk : Byte) : Bool :=
  !(kk = 0x07 || kk = 0x0A || kk = 0x15 || kk = 0x18 || kk = 0x1E || kk = 0x29 || kk = 0x33 || kk = 0x55 || kk = 0x65)

/-- Well-formed: a reserved no-op stands for a reserved word; every other term is well-formed as it stands. -/
def Instr.wf : Instr → Bool
  | .nop0 nnn => !(nnn = 0x0E0 || nnn = 0x0EE)
  | .nop8 _ _ u => reserved8 u
  | .nopE _ kk => reservedE kk
  | .nopF _ kk => reservedF kk
  | .cls | .ret | .jp _ | .call _ | .seImm _ _ | .sneImm _ _ | .seReg _ _ _ | .ldImm _ _ | .addImm _ _
  | .ldReg _ _ | .orReg _ _ | .andReg _ _ | .xorReg _ _ | .addReg _ _ | .subReg _ _ | .shr _ _ | .subnReg _ _
  | .shl _ _ | .sneReg _ _ _ | .ldI _ | .jpV0 _ | .rnd _ _ | .drw _ _ _ | .skp _ | .sknp _ | .ldVxDt _ | .ldVxK _
  | .ldDtVx _ | .ldStVx _ | .addI _ | .ldF _ | .ldB _ | .stRegs _ | .ldRegs _ => true

end Sys2Proof
end

