-- ==== Sys2Proof/Decode.lean ====
section
/-! DEFINITION. Decode and encode (30_encoding.md R49 to R60), written from the encoding tables of the spec: the fields
of a word, the total decoder, the encoder beside it, the opcode table as data, and the byte order of an instruction in
memory (20_memory.md R36). -/

namespace Sys2Proof

/-! ## Fields of a word (R10, R49) -/

/-- The class nibble c = w[15:12]. -/
def fieldC (w : Word) : Nibble := w.extractLsb' 12 4

/-- The first register field x = w[11:8]. -/
def fieldX (w : Word) : Reg := (w.extractLsb' 8 4).toFin

/-- The second register field y = w[7:4]. -/
def fieldY (w : Word) : Reg := (w.extractLsb' 4 4).toFin

/-- The nibble n = w[3:0]. -/
def fieldN (w : Word) : Nibble := w.extractLsb' 0 4

/-- The byte kk = w[7:0]. -/
def fieldKK (w : Word) : Byte := w.extractLsb' 0 8

/-- The address nnn = w[11:0]. -/
def fieldNNN (w : Word) : Addr12 := w.extractLsb' 0 12

/-! ## The decoder (R51) -/

/-- Class 0 matches the whole word (R52). -/
def decodeClass0 (nnn : Addr12) : Instr :=
  if nnn = 0x0E0 then .cls else if nnn = 0x0EE then .ret else .nop0 nnn

/-- Class 8 decodes n (R54). -/
def decodeClass8 (x y : Reg) (n : Nibble) : Instr :=
  match n with
  | 0x0#4 => .ldReg x y
  | 0x1#4 => .orReg x y
  | 0x2#4 => .andReg x y
  | 0x3#4 => .xorReg x y
  | 0x4#4 => .addReg x y
  | 0x5#4 => .subReg x y
  | 0x6#4 => .shr x y
  | 0x7#4 => .subnReg x y
  | 0xE#4 => .shl x y
  | u => .nop8 x y u

/-- Class E decodes kk (R55). -/
def decodeClassE (x : Reg) (kk : Byte) : Instr :=
  match kk with
  | 0x9E#8 => .skp x
  | 0xA1#8 => .sknp x
  | k => .nopE x k

/-- Class F decodes kk (R56). -/
def decodeClassF (x : Reg) (kk : Byte) : Instr :=
  match kk with
  | 0x07#8 => .ldVxDt x
  | 0x0A#8 => .ldVxK x
  | 0x15#8 => .ldDtVx x
  | 0x18#8 => .ldStVx x
  | 0x1E#8 => .addI x
  | 0x29#8 => .ldF x
  | 0x33#8 => .ldB x
  | 0x55#8 => .stRegs x
  | 0x65#8 => .ldRegs x
  | k => .nopF x k

/-- The decoder: every 16-bit word is one of the 34 instructions or a reserved no-op (R51). Classes 5 and 9 do not
decode the low nibble (R53). It reads nothing but the word. -/
def decodeWord (w : Word) : Instr :=
  match fieldC w with
  | 0x0#4 => decodeClass0 (fieldNNN w)
  | 0x1#4 => .jp (fieldNNN w)
  | 0x2#4 => .call (fieldNNN w)
  | 0x3#4 => .seImm (fieldX w) (fieldKK w)
  | 0x4#4 => .sneImm (fieldX w) (fieldKK w)
  | 0x5#4 => .seReg (fieldX w) (fieldY w) (fieldN w)
  | 0x6#4 => .ldImm (fieldX w) (fieldKK w)
  | 0x7#4 => .addImm (fieldX w) (fieldKK w)
  | 0x8#4 => decodeClass8 (fieldX w) (fieldY w) (fieldN w)
  | 0x9#4 => .sneReg (fieldX w) (fieldY w) (fieldN w)
  | 0xA#4 => .ldI (fieldNNN w)
  | 0xB#4 => .jpV0 (fieldNNN w)
  | 0xC#4 => .rnd (fieldX w) (fieldKK w)
  | 0xD#4 => .drw (fieldX w) (fieldY w) (fieldN w)
  | 0xE#4 => decodeClassE (fieldX w) (fieldKK w)
  | _ => decodeClassF (fieldX w) (fieldKK w)

/-! ## Instructions as bytes (R36, R48, R60) -/

/-- The word that two consecutive bytes of memory hold, big-endian (R36). -/
def wordOfBytes (hi lo : Byte) : Word := hi ++ lo

/-- The two bytes that hold a word, the byte of bits 15 to 8 first (R36). -/
def bytesOfWord (w : Word) : List Byte := [w.extractLsb' 8 8, w.extractLsb' 0 8]

/-- Why bytes are no instruction. -/
inductive DecodeError where
  /-- Fewer than two bytes: an instruction is always two (R60). No word is ever rejected (R51). -/
  | needsTwoBytes
  deriving DecidableEq, Repr

/-- Decode the first instruction of any bytes: the instruction and the bytes after it, or the reason there is none. -/
def decode : List Byte → Except DecodeError (Instr × List Byte)
  | hi :: lo :: rest => .ok (decodeWord (wordOfBytes hi lo), rest)
  | [_] => .error .needsTwoBytes
  | [] => .error .needsTwoBytes

/-- The instruction the decoder reads from an opcode-table word of nbits bits, numbered as spec/opcode_table.json
numbers them: bit 0 is the word's least significant bit. Every row is one 16-bit word (R49), laid out in memory
big-endian (R36); bits above nbits are 0. -/
def decodeTableWord (nbits w : Nat) : Option Instr :=
  if nbits ≤ 16 then
    match decode (bytesOfWord (BitVec.ofNat 16 (w % 2 ^ nbits))) with
    | .ok (i, []) => some i
    | .ok (_, _ :: _) => none
    | .error _ => none
  else none

/-! ## The encoder, from the formats of R49 and the patterns of R51 -/

/-- Format A (`addr`): c, nnn. -/
def formatA (c : Nibble) (nnn : Addr12) : Word := c ++ nnn

/-- Formats B and D (`reg_imm`, `reg_sub`): c, x, kk. -/
def formatB (c : Nibble) (x : Reg) (kk : Byte) : Word := c ++ (BitVec.ofFin x : Nibble) ++ kk

/-- Format C (`reg_reg`): c, x, y, n. -/
def formatC (c : Nibble) (x y : Reg) (n : Nibble) : Word :=
  c ++ (BitVec.ofFin x : Nibble) ++ (BitVec.ofFin y : Nibble) ++ n

/-- The word of an instruction. -/
def encode : Instr → Word
  | .cls => 0x00E0
  | .ret => 0x00EE
  | .jp nnn => formatA 0x1 nnn
  | .call nnn => formatA 0x2 nnn
  | .seImm x kk => formatB 0x3 x kk
  | .sneImm x kk => formatB 0x4 x kk
  | .seReg x y u => formatC 0x5 x y u
  | .ldImm x kk => formatB 0x6 x kk
  | .addImm x kk => formatB 0x7 x kk
  | .ldReg x y => formatC 0x8 x y 0x0
  | .orReg x y => formatC 0x8 x y 0x1
  | .andReg x y => formatC 0x8 x y 0x2
  | .xorReg x y => formatC 0x8 x y 0x3
  | .addReg x y => formatC 0x8 x y 0x4
  | .subReg x y => formatC 0x8 x y 0x5
  | .shr x y => formatC 0x8 x y 0x6
  | .subnReg x y => formatC 0x8 x y 0x7
  | .shl x y => formatC 0x8 x y 0xE
  | .sneReg x y u => formatC 0x9 x y u
  | .ldI nnn => formatA 0xA nnn
  | .jpV0 nnn => formatA 0xB nnn
  | .rnd x kk => formatB 0xC x kk
  | .drw x y n => formatC 0xD x y n
  | .skp x => formatB 0xE x 0x9E
  | .sknp x => formatB 0xE x 0xA1
  | .ldVxDt x => formatB 0xF x 0x07
  | .ldVxK x => formatB 0xF x 0x0A
  | .ldDtVx x => formatB 0xF x 0x15
  | .ldStVx x => formatB 0xF x 0x18
  | .addI x => formatB 0xF x 0x1E
  | .ldF x => formatB 0xF x 0x29
  | .ldB x => formatB 0xF x 0x33
  | .stRegs x => formatB 0xF x 0x55
  | .ldRegs x => formatB 0xF x 0x65
  | .nop0 nnn => formatA 0x0 nnn
  | .nop8 x y u => formatC 0x8 x y u
  | .nopE x kk => formatB 0xE x kk
  | .nopF x kk => formatB 0xF x kk

/-- The bytes of an instruction in memory, two of them (R60), big-endian (R36). -/
def encodeBytes (i : Instr) : List Byte := bytesOfWord (encode i)

/-- The reserved no-ops (R58). -/
def Instr.isReserved (i : Instr) : Bool :=
  match i with
  | .nop0 _ => true
  | .nop8 _ _ _ => true
  | .nopE _ _ => true
  | .nopF _ _ => true
  | .cls | .ret | .jp _ | .call _ | .seImm _ _ | .sneImm _ _ | .seReg _ _ _ | .ldImm _ _ | .addImm _ _
  | .ldReg _ _ | .orReg _ _ | .andReg _ _ | .xorReg _ _ | .addReg _ _ | .subReg _ _ | .shr _ _ | .subnReg _ _
  | .shl _ _ | .sneReg _ _ _ | .ldI _ | .jpV0 _ | .rnd _ _ | .drw _ _ _ | .skp _ | .sknp _ | .ldVxDt _ | .ldVxK _
  | .ldDtVx _ | .ldStVx _ | .addI _ | .ldF _ | .ldB _ | .stRegs _ | .ldRegs _ => false

/-! ## The opcode table as data -/

/-- A row of spec/opcode_table.json: a word w is of the row when w AND mask is the row's pattern. -/
structure OpcodeRow where
  mnemonic : String
  pattern : Word
  mask : Word
  deriving DecidableEq, Repr

/-- The word fits the row's pattern under its mask. -/
def OpcodeRow.fits (r : OpcodeRow) (w : Word) : Bool := w &&& r.mask = r.pattern

/-- The rows of the 34 instructions (spec/opcode_table.json; R51). -/
def instructionRows : List OpcodeRow :=
  [⟨"00E0", 0x00E0, 0xFFFF⟩, ⟨"00EE", 0x00EE, 0xFFFF⟩, ⟨"1nnn", 0x1000, 0xF000⟩,
   ⟨"2nnn", 0x2000, 0xF000⟩, ⟨"3xkk", 0x3000, 0xF000⟩, ⟨"4xkk", 0x4000, 0xF000⟩,
   ⟨"5xy0", 0x5000, 0xF000⟩, ⟨"6xkk", 0x6000, 0xF000⟩, ⟨"7xkk", 0x7000, 0xF000⟩,
   ⟨"8xy0", 0x8000, 0xF00F⟩, ⟨"8xy1", 0x8001, 0xF00F⟩, ⟨"8xy2", 0x8002, 0xF00F⟩,
   ⟨"8xy3", 0x8003, 0xF00F⟩, ⟨"8xy4", 0x8004, 0xF00F⟩, ⟨"8xy5", 0x8005, 0xF00F⟩,
   ⟨"8xy6", 0x8006, 0xF00F⟩, ⟨"8xy7", 0x8007, 0xF00F⟩]
  ++
  [⟨"8xyE", 0x800E, 0xF00F⟩, ⟨"9xy0", 0x9000, 0xF000⟩, ⟨"Annn", 0xA000, 0xF000⟩,
   ⟨"Bnnn", 0xB000, 0xF000⟩, ⟨"Cxkk", 0xC000, 0xF000⟩, ⟨"Dxyn", 0xD000, 0xF000⟩,
   ⟨"Ex9E", 0xE09E, 0xF0FF⟩, ⟨"ExA1", 0xE0A1, 0xF0FF⟩, ⟨"Fx07", 0xF007, 0xF0FF⟩,
   ⟨"Fx0A", 0xF00A, 0xF0FF⟩, ⟨"Fx15", 0xF015, 0xF0FF⟩, ⟨"Fx18", 0xF018, 0xF0FF⟩,
   ⟨"Fx1E", 0xF01E, 0xF0FF⟩, ⟨"Fx29", 0xF029, 0xF0FF⟩, ⟨"Fx33", 0xF033, 0xF0FF⟩,
   ⟨"Fx55", 0xF055, 0xF0FF⟩, ⟨"Fx65", 0xF065, 0xF0FF⟩]

/-- The reserved rows: each applies only where no instruction row does (R58). -/
def reservedRows : List OpcodeRow :=
  [⟨"NOP_class_0", 0x0000, 0xF000⟩, ⟨"NOP_class_8", 0x8000, 0xF000⟩, ⟨"NOP_class_E", 0xE000, 0xF000⟩,
   ⟨"NOP_class_F", 0xF000, 0xF000⟩]

/-- The mnemonic the opcode table gives a word: that of the instruction row it fits, else of its class's reserved row. -/
def tableMnemonic (w : Word) : Option String :=
  ((instructionRows ++ reservedRows).find? (fun r => r.fits w)).map OpcodeRow.mnemonic

/-- An instruction's mnemonic as spec/opcode_table.json spells it: the pattern names of R61. -/
def Instr.mnemonic : Instr → String
  | .cls => "00E0"
  | .ret => "00EE"
  | .jp _ => "1nnn"
  | .call _ => "2nnn"
  | .seImm _ _ => "3xkk"
  | .sneImm _ _ => "4xkk"
  | .seReg _ _ _ => "5xy0"
  | .ldImm _ _ => "6xkk"
  | .addImm _ _ => "7xkk"
  | .ldReg _ _ => "8xy0"
  | .orReg _ _ => "8xy1"
  | .andReg _ _ => "8xy2"
  | .xorReg _ _ => "8xy3"
  | .addReg _ _ => "8xy4"
  | .subReg _ _ => "8xy5"
  | .shr _ _ => "8xy6"
  | .subnReg _ _ => "8xy7"
  | .shl _ _ => "8xyE"
  | .sneReg _ _ _ => "9xy0"
  | .ldI _ => "Annn"
  | .jpV0 _ => "Bnnn"
  | .rnd _ _ => "Cxkk"
  | .drw _ _ _ => "Dxyn"
  | .skp _ => "Ex9E"
  | .sknp _ => "ExA1"
  | .ldVxDt _ => "Fx07"
  | .ldVxK _ => "Fx0A"
  | .ldDtVx _ => "Fx15"
  | .ldStVx _ => "Fx18"
  | .addI _ => "Fx1E"
  | .ldF _ => "Fx29"
  | .ldB _ => "Fx33"
  | .stRegs _ => "Fx55"
  | .ldRegs _ => "Fx65"
  | .nop0 _ => "NOP_class_0"
  | .nop8 _ _ _ => "NOP_class_8"
  | .nopE _ _ => "NOP_class_E"
  | .nopF _ _ => "NOP_class_F"

end Sys2Proof
end

