-- ==== Sys2Proof/Config.lean ====
section
/-! DEFINITION. The fixed parameters of the hardware (00_scope.md R5), the parameters a machine is constructed with
(R6, R7, R8), and the one free value of the model, the random byte of `Cxkk` (R9). -/

namespace Sys2Proof

/-- MEM_SIZE: bytes of memory, addresses 0 to 4095 (R5). -/
abbrev memSize : Nat := 4096

/-- PROG_BASE: the program load address (R5). -/
abbrev progBase : Nat := 0x200

/-- PROG_CAPACITY: the most bytes `load` copies (R5). -/
abbrev progCapacity : Nat := 3584

/-- FONT_BASE: the first byte of the font region (R5). -/
abbrev fontBase : Nat := 0x050

/-- The bytes of the font region, FONT_BASE to FONT_END (R5). -/
abbrev fontBytes : Nat := 80

/-- GLYPH_BYTES: bytes per font glyph (R5). -/
abbrev glyphBytes : Nat := 5

/-- DISP_W: framebuffer columns (R5). -/
abbrev dispW : Nat := 64

/-- DISP_H: framebuffer rows (R5). -/
abbrev dispH : Nat := 32

/-- Which of its two register fields a shift instruction reads its operand from (R7). -/
inductive ShiftSource where
  | x
  | y
  deriving DecidableEq, Repr

/-- FONT_DATA: five bytes a glyph, glyph d at offset 5·d (R8). -/
abbrev Font := Vector Byte 80

/-- The parameters a machine is constructed with (R6, R7, R8; 70_reset_and_hazards.md R124). -/
structure Config where
  /-- STACK_DEPTH: the call stack's capacity in return addresses, at least 16 (R6). -/
  stackDepth : Nat
  /-- SHR_SRC: the register `8xy6` reads (R7). -/
  shrSource : ShiftSource
  /-- SHL_SRC: the register `8xyE` reads (R7). -/
  shlSource : ShiftSource
  /-- FONT_DATA: the 80 bytes copied to the font region at construction (R8). -/
  font : Font
  deriving DecidableEq, Repr

/-- What R6 asks of the parameters: STACK_DEPTH is at least 16. -/
abbrev Config.Ok (c : Config) : Prop := 16 ≤ c.stackDepth

/-- FONT_DATA's default: the conventional CHIP-8 hexadecimal font (10_state.md R23).
PRESUMED: the spec marks these bytes as general knowledge. Unsafe for a claim about glyph bytes (log 5). -/
def Config.conventionalFont : Font :=
  ⟨#[0xF0, 0x90, 0x90, 0x90, 0xF0,  0x20, 0x60, 0x20, 0x20, 0x70,
     0xF0, 0x10, 0xF0, 0x80, 0xF0,  0xF0, 0x10, 0xF0, 0x10, 0xF0,
     0x90, 0x90, 0xF0, 0x10, 0x10,  0xF0, 0x80, 0xF0, 0x10, 0xF0,
     0xF0, 0x80, 0xF0, 0x90, 0xF0,  0xF0, 0x10, 0x20, 0x40, 0x40,
     0xF0, 0x90, 0xF0, 0x90, 0xF0,  0xF0, 0x90, 0xF0, 0x10, 0xF0,
     0xF0, 0x90, 0xF0, 0x90, 0x90,  0xE0, 0x90, 0xE0, 0x90, 0xE0,
     0xF0, 0x80, 0x80, 0x80, 0xF0,  0xE0, 0x90, 0x90, 0x90, 0xE0,
     0xF0, 0x80, 0xF0, 0x80, 0xF0,  0xF0, 0x80, 0xF0, 0x80, 0x80], rfl⟩

/-- The default parameters: STACK_DEPTH 16 (R6), SHR_SRC Y and SHL_SRC X, the normative values (R7), and the default
font (R8). DESIGN CHOICE: a reset machine takes the spec's defaults; every other statement holds for every
configuration. Unsafe for a claim about the reset machine's depth, shift sources or font (log 4, log 5). -/
def Config.default : Config where
  stackDepth := 16
  shrSource := .y
  shlSource := .x
  font := Config.conventionalFont

/-- The k-th random byte that `Cxkk` draws: a free value, one 8-bit value per execution, under no law (R9, R116).
DESIGN CHOICE: an opaque constant applied to the count of draws. Safe: nothing constrains it (log 3). -/
opaque Config.randomByte : Nat → Byte

end Sys2Proof
end

