-- ==== Sys2Proof/Machine/State.lean ====
section
/-! DEFINITION. The machine's state as plain data (10_state.md R15 to R34), the reasons a step could stop, and
construction (70_reset_and_hazards.md R124). -/

namespace Sys2Proof.Machine

/-! ## The outcome's reasons -/

/-- Why a step could end in a fault outcome. No step of this model does: the spec describes the entry of every fatal
condition (60_exceptions.md R102), so raising one is a NEXT state that holds the fault record (log 1). -/
inductive Fault where
  /-- Raised by nothing: the spec gives every word, register value and host call a defined result
  (93_implementation_defined.md). A name for a later repair that must stop. Safe: a stop proves nothing. -/
  | effectNotGiven
  deriving DecidableEq, Repr

/-- Why a step could be refused. -/
inductive Refusal where
  /-- Raised by an arm of `exec` whose instruction has no meaning yet; no arm is such an arm now. Safe: a stop. -/
  | notModelled (mnemonic : String)
  deriving DecidableEq, Repr

/-! ## The fault record -/

/-- The six fatal causes (60_exceptions.md R101). -/
inductive FaultCause where
  /-- `00EE` with an empty stack. -/
  | stackUnderflow
  /-- `2nnn` with a full stack. -/
  | stackOverflow
  /-- A fetch at 4095. -/
  | fetchOutOfBounds
  /-- `Fx33`, `Fx55` with a range that reaches 4096. -/
  | storeOutOfBounds
  /-- `Dxyn`, `Fx65` with a range that reaches 4096. -/
  | loadOutOfBounds
  /-- `Ex9E`, `ExA1` with V[x] above 15. -/
  | keyIndexOutOfRange
  deriving DecidableEq, Repr

/-- The fault record (10_state.md R30). Its `code` is a function of the cause (`FaultCause.code`, log 6). -/
structure FaultRecord where
  cause : FaultCause
  /-- The address of the step's instruction, or of the attempted fetch (60_exceptions.md R102). -/
  instrAddr : Word
  /-- The fetched word, none for a fetch fault (R102). -/
  word : Option Word
  /-- What R101's column "info recorded" says: none, SP, an address, or V[x]. -/
  info : Option Nat
  deriving DecidableEq, Repr

/-! ## The state -/

/-- Memory as the cells that differ from what an unlisted address reads as, addresses rising (log 7). -/
abbrev Memory := List Host.Cell

/-- The framebuffer: 32 rows of 64 pixels, row py first, then column px; true is on (10_state.md R27). -/
abbrev Framebuffer := Vector (Vector Bool 64) 32

/-- The machine (10_state.md R15), with two fields that are the model's own: `cfg`, the construction parameters, and
`draws`, the number of random bytes drawn. -/
structure State where
  /-- V[0] to V[15] (R16, R17). -/
  v : Vector Byte 16
  /-- I (R19). -/
  index : Word
  /-- pc (R20). -/
  pc : Word
  /-- STACK, the oldest entry first; SP is its length (R24). -/
  stack : List Word
  /-- DT (R25). -/
  dt : Byte
  /-- ST (R26). -/
  st : Byte
  /-- M[0..4095] (R22). -/
  mem : Memory
  /-- FB (R27). -/
  fb : Framebuffer
  /-- DIRTY (R28). -/
  dirty : Bool
  /-- KEY[0..15] (R29). -/
  key : Vector Bool 16
  /-- FAULT (R30). -/
  fault : Option FaultRecord
  /-- How many random bytes `Cxkk` has drawn: the model's own field (00_scope.md R9, log 3). -/
  draws : Nat
  /-- The parameters of construction: configuration, not architectural state (R15, log 4). No transition writes it. -/
  cfg : Config
  deriving DecidableEq, Repr

/-- What a meaning and a step answer. -/
abbrev Out := Host.Outcome State Fault Refusal

/-- Construction with the given parameters, the machine's only reset (70_reset_and_hazards.md R124). Memory lists
nothing: an unlisted address reads as its construction value. `draws` starts at 0 (DESIGN CHOICE, log 3). -/
def State.construct (cfg : Config) : State where
  v := Vector.replicate 16 0
  index := 0
  pc := 0x200
  stack := []
  dt := 0
  st := 0
  mem := []
  fb := Vector.replicate 32 (Vector.replicate 64 false)
  dirty := false
  key := Vector.replicate 16 false
  fault := none
  draws := 0
  cfg := cfg

/-- The machine right after reset: construction with the spec's default parameters (R124; log 4, log 5). -/
def State.reset : State := State.construct Config.default

end Sys2Proof.Machine
end

