-- ==== Sys2Proof/Machine/Ops.lean ====
section
/-! DEFINITION. The named operations over memory, registers, the stack, the framebuffer and pc; the fetch; and taking
a fault, once (60_exceptions.md R102). There is no return from a fault (R105), so no operation returns from one. -/

namespace Sys2Proof.Machine

/-! ## Memory (10_state.md R22, 20_memory.md R35 to R40) -/

/-- What an address that memory does not list reads as: the construction contents, FONT_DATA in the font region and
zero elsewhere (R22, R124). -/
def unlistedByte (font : Font) (a : Nat) : Byte :=
  if h : fontBase ≤ a ∧ a < fontBase + fontBytes then font[a - fontBase]'(Nat.sub_lt_left_of_lt_add h.1 h.2) else 0

/-- M[a]. -/
def Memory.read (font : Font) : Memory → Nat → Byte
  | [], a => unlistedByte font a
  | (b, u) :: rest, a => if a = b then u else Memory.read font rest a

/-- Put a cell in front, unless it holds what an unlisted address reads as. -/
def Memory.consCell (font : Font) (a : Nat) (v : Byte) (m : Memory) : Memory :=
  if v = unlistedByte font a then m else (a, v) :: m

/-- M[a] <- v, in canonical form. -/
def Memory.write (font : Font) : Memory → Nat → Byte → Memory
  | [], a, v => Memory.consCell font a v []
  | (b, u) :: rest, a, v =>
    if a < b then Memory.consCell font a v ((b, u) :: rest)
    else if a = b then Memory.consCell font a v rest
    else (b, u) :: Memory.write font rest a v

/-- M[a + i] <- bs[i], ascending. -/
def Memory.writeBytes (font : Font) : Memory → Nat → List Byte → Memory
  | m, _, [] => m
  | m, a, b :: bs => Memory.writeBytes font (Memory.write font m a b) (a + 1) bs

/-- The canonical form: addresses strictly rising and inside memory, and no cell equal to what its address reads as
when unlisted. -/
abbrev Memory.wf (font : Font) (m : Memory) : Prop :=
  m.Pairwise (fun c d => c.1 < d.1) ∧ ∀ c ∈ m, c.1 < memSize ∧ c.2 ≠ unlistedByte font c.1

/-- The range of n bytes from a lies in memory; an empty range touches none (R39). -/
abbrev inBounds (a n : Nat) : Prop := n = 0 ∨ a + n ≤ memSize

/-- The lowest address of a range from a that reaches 4096 which is itself 4096 or more (R101, R39). -/
def firstOutOfBounds (a : Nat) : Nat := max a memSize

/-- M[a] of this machine. -/
def State.readByte (s : State) (a : Nat) : Byte := Memory.read s.cfg.font s.mem a

/-- MemRead over the whole range at once: the n bytes from a, or none if one of them is outside memory
(00_scope.md R13, 60_exceptions.md R103). -/
def State.loadBytes (s : State) (a n : Nat) : Option (List Byte) :=
  if inBounds a n then some ((List.range n).map (fun k => s.readByte (a + k))) else none

/-- MemWrite over the whole range at once: the bytes stored from a, or none, and nothing written, if one of them is
outside memory (00_scope.md R13, 60_exceptions.md R103). -/
def State.storeBytes (s : State) (a : Nat) (bs : List Byte) : Option State :=
  if inBounds a bs.length then some { s with mem := Memory.writeBytes s.cfg.font s.mem a bs } else none

/-! ## Registers (10_state.md R16, R17, R19) -/

/-- V[r]. -/
def State.reg (s : State) (r : Reg) : Byte := s.v[r]

/-- V[r] <- b. -/
def State.setReg (s : State) (r : Reg) (b : Byte) : State := { s with v := s.v.set r b }

/-- VF <- b. -/
def State.setFlag (s : State) (b : Byte) : State := s.setReg VF b

/-- V[0..x] as a list (42_index_memory.md R88). -/
def State.regsUpTo (s : State) (x : Reg) : List Byte := s.v.toList.take (x + 1)

/-- V[i] <- bs[i] for each byte of the list (42_index_memory.md R89). -/
def State.setRegs (s : State) (bs : List Byte) : State :=
  { s with v := Vector.ofFn (fun i : Reg => bs.getD i (s.reg i)) }

/-- I <- w. -/
def State.setIndex (s : State) (w : Word) : State := { s with index := w }

/-! ## Program counter (10_state.md R20, R21) -/

/-- pc <- w. -/
def State.setPc (s : State) (w : Word) : State := { s with pc := w }

/-- The fetch's advance, and a skip's: pc <- pc + 2 (30_encoding.md R47, 40_control_flow.md R66). It
wraps at 16 bits only where no run reaches (DESIGN CHOICE, safe, log 12). -/
def State.advancePc (s : State) : State := s.setPc (s.pc + 2)

/-- The wait for a key re-issues its instruction: pc <- pc - 2 (44_timers_keys.md R100). -/
def State.rewindPc (s : State) : State := s.setPc (s.pc - 2)

/-- Skip the next instruction when the condition holds (40_control_flow.md R66, R70). -/
def State.skipIf (s : State) (c : Bool) : State := if c then s.advancePc else s

/-! ## Call stack (10_state.md R24) -/

/-- SP, the number of entries. -/
def State.sp (s : State) : Nat := s.stack.length

/-- STACK[SP] <- w; SP <- SP + 1. -/
def State.push (s : State) (w : Word) : State := { s with stack := s.stack ++ [w] }

/-- The top of the stack and the machine with it popped, or none if the stack is empty. -/
def State.pop (s : State) : Option (Word × State) :=
  match s.stack.getLast? with
  | some w => some (w, { s with stack := s.stack.dropLast })
  | none => none

/-! ## Timers and the random draw (10_state.md R25, R26, 00_scope.md R9) -/

/-- DT <- b. -/
def State.setDt (s : State) (b : Byte) : State := { s with dt := b }

/-- ST <- b. -/
def State.setSt (s : State) (b : Byte) : State := { s with st := b }

/-- The random byte that the next `Cxkk` draws. -/
def State.randomByte (s : State) : Byte := Config.randomByte s.draws

/-- One random byte has been drawn. -/
def State.countDraw (s : State) : State := { s with draws := s.draws + 1 }

/-! ## Framebuffer (10_state.md R27, R28) -/

/-- FB[px, py]. -/
def Framebuffer.pixel (fb : Framebuffer) (px : Fin 64) (py : Fin 32) : Bool := fb[py][px]

/-- FB[px, py] <- b. -/
def Framebuffer.setPixel (fb : Framebuffer) (px : Fin 64) (py : Fin 32) (b : Bool) : Framebuffer :=
  fb.set py (fb[py].set px b)

/-- FB[px, py] <- FB[px, py] xor 1. -/
def Framebuffer.flip (fb : Framebuffer) (px : Fin 64) (py : Fin 32) : Framebuffer :=
  Framebuffer.setPixel fb px py (!Framebuffer.pixel fb px py)

/-- Every pixel off. -/
def Framebuffer.blank : Framebuffer := Vector.replicate 32 (Vector.replicate 64 false)

/-- FB <- fb, and the framebuffer is marked dirty (R28). -/
def State.drawScreen (s : State) (fb : Framebuffer) : State := { s with fb := fb, dirty := true }

/-- FB[px, py] of this machine. -/
def State.pixel (s : State) (px : Fin 64) (py : Fin 32) : Bool := Framebuffer.pixel s.fb px py

/-! ## Input latch (10_state.md R29) -/

/-- The least k with KEY[k] true: the ascending scan of `Fx0A` (44_timers_keys.md R100). -/
def State.firstKey (s : State) : Option Reg := (List.finRange 16).find? (fun k => s.key[k])

/-! ## Faults (60_exceptions.md R101 to R103) -/

/-- The code of a cause (R101). -/
def FaultCause.code : FaultCause → Nat
  | .stackUnderflow => 1
  | .stackOverflow => 2
  | .fetchOutOfBounds => 3
  | .storeOutOfBounds => 4
  | .loadOutOfBounds => 5
  | .keyIndexOutOfRange => 6

/-- The code of a fault record (10_state.md R30). -/
def FaultRecord.code (r : FaultRecord) : Nat := r.cause.code

/-- Fault entry, the one operation that writes FAULT: the record is stored and nothing else changes (R102). -/
def State.takeFault (s : State) (r : FaultRecord) : State := { s with fault := some r }

/-- `raise` by an instruction: pc already holds a + 2, so the instruction was fetched from pc - 2, and the fetched
word is the instruction's word (R102; DEDUCED, log 6). -/
def State.raise (s : State) (i : Instr) (cause : FaultCause) (info : Option Nat) : Out :=
  .next (s.takeFault { cause := cause, instrAddr := s.pc - 2, word := some (encode i), info := info })

/-- `raise` by the fetch: pc keeps a, there is no word, and the info is pc + 1 (30_encoding.md R48, R102). -/
def State.raiseFetch (s : State) : Out :=
  .next (s.takeFault
    { cause := .fetchOutOfBounds, instrAddr := s.pc, word := none, info := some (s.pc.toNat + 1) })

/-! ## Run status and fetch (10_state.md R31, 30_encoding.md R47, R48) -/

/-- The run status, a function of the state; the result of a step is the status of the state it answers (R47). -/
inductive RunStatus where
  | running
  | halted
  | fatal
  deriving DecidableEq, Repr

/-- Fatal if FAULT holds a record, else Halted if pc is 4096 or more, else Running (R31). -/
def State.status (s : State) : RunStatus :=
  if s.fault.isSome then .fatal else if memSize ≤ s.pc.toNat then .halted else .running

/-- The word at pc, big-endian, or none if its second byte is outside memory (R48, 20_memory.md R36). -/
def State.fetchWord (s : State) : Option Word :=
  match s.loadBytes s.pc.toNat 2 with
  | some [hi, lo] => some (wordOfBytes hi lo)
  | some _ => none
  | none => none

end Sys2Proof.Machine
end

