-- ==== Sys2Proof/Machine/Operands.lean ====
section
/-! DEFINITION. The operand forms (30_encoding.md R50, 42_index_memory.md R90, 41_alu.md R80, R81): what an operand
field stands for, and the addresses an instruction computes. -/

namespace Sys2Proof.Machine

/-- nnn as a 16-bit value, zero-extended (R50). -/
def zextAddr (nnn : Addr12) : Word := nnn.setWidth 16

/-- A byte as a 16-bit value, zero-extended. -/
def zextByte (b : Byte) : Word := b.setWidth 16

/-- n as a count, 0 to 15 (R50). -/
def countOf (n : Nibble) : Nat := n.toNat

/-- The data address I, a natural number that never wraps (R90, 20_memory.md R39). -/
def State.dataAddr (s : State) : Nat := s.index.toNat

/-- The register a shift reads: y or x as the parameter says (00_scope.md R7). -/
def shiftOperand (src : ShiftSource) (x y : Reg) : Reg :=
  match src with
  | .x => x
  | .y => y

/-- The address of the glyph of a byte's low digit: FONT_BASE + 5·(b & 0xF) (R86). -/
def glyphAddr (b : Byte) : Word := BitVec.ofNat 16 (fontBase + glyphBytes * (b.toNat % 16))

/-- The decimal digits of a byte, hundreds first (R87). -/
def bcdDigits (b : Byte) : List Byte :=
  [BitVec.ofNat 8 (b.toNat / 100), BitVec.ofNat 8 (b.toNat / 10 % 10), BitVec.ofNat 8 (b.toNat % 10)]

/-- The framebuffer column of a coordinate, modulo 64 (43_display.md R91). -/
def columnOf (n : Nat) : Fin 64 := ⟨n % 64, Nat.mod_lt n (by decide)⟩

/-- The framebuffer row of a coordinate, modulo 32 (43_display.md R91). -/
def rowOf (n : Nat) : Fin 32 := ⟨n % 32, Nat.mod_lt n (by decide)⟩

/-- The key a byte names, none above 15 (44_timers_keys.md R98, R99). -/
def keyOf (b : Byte) : Option Reg := if h : b.toNat < 16 then some ⟨b.toNat, h⟩ else none

end Sys2Proof.Machine
end

