-- ==== Sys2Proof/Machine/Alu.lean ====
section
/-! DEFINITION. Register loads, arithmetic, logic, shifts and random (41_alu.md R71 to R83). Statements run in the
order of the rule and a read sees every earlier write of the same instruction (00_scope.md R14): `8xy4` reads both
operands before it writes VF, the others that write VF read them again after it. -/

namespace Sys2Proof.Machine

/-- `6xkk`: V[x] <- kk (R71). -/
def execLdImm (x : Reg) (kk : Byte) (s : State) : Out := .next (s.setReg x kk)

/-- `7xkk`: V[x] <- (V[x] + kk) mod 256, no flag (R72). -/
def execAddImm (x : Reg) (kk : Byte) (s : State) : Out := .next (s.setReg x (s.reg x + kk))

/-- `8xy0`: V[x] <- V[y] (R73). -/
def execLdReg (x y : Reg) (s : State) : Out := .next (s.setReg x (s.reg y))

/-- `8xy1`: V[x] <- V[x] | V[y], VF untouched (R74). -/
def execOrReg (x y : Reg) (s : State) : Out := .next (s.setReg x (s.reg x ||| s.reg y))

/-- `8xy2`: V[x] <- V[x] & V[y], VF untouched (R75). -/
def execAndReg (x y : Reg) (s : State) : Out := .next (s.setReg x (s.reg x &&& s.reg y))

/-- `8xy3`: V[x] <- V[x] ^ V[y], VF untouched (R76). -/
def execXorReg (x y : Reg) (s : State) : Out := .next (s.setReg x (s.reg x ^^^ s.reg y))

/-- `8xy4`: the sum of both operands, read before any write; VF <- carry, then V[x] <- sum mod 256 (R77). -/
def execAddReg (x y : Reg) (s : State) : Out :=
  let sum := s.reg x + s.reg y
  .next ((s.setFlag (carryFlag (s.reg x) (s.reg y))).setReg x sum)

/-- `8xy5`: VF <- NOT borrow, then V[x] <- V[x] - V[y], read after the VF write (R78). -/
def execSubReg (x y : Reg) (s : State) : Out :=
  let s₁ := s.setFlag (noBorrowFlag (s.reg x) (s.reg y))
  .next (s₁.setReg x (s₁.reg x - s₁.reg y))

/-- `8xy7`: VF <- NOT borrow, then V[x] <- V[y] - V[x], read after the VF write (R79). -/
def execSubnReg (x y : Reg) (s : State) : Out :=
  let s₁ := s.setFlag (noBorrowFlag (s.reg y) (s.reg x))
  .next (s₁.setReg x (s₁.reg y - s₁.reg x))

/-- `8xy6`: VF <- the source's bit 0, then V[x] <- the source shifted right, read after the VF write (R80). -/
def execShr (x y : Reg) (s : State) : Out :=
  let src := shiftOperand s.cfg.shrSource x y
  let s₁ := s.setFlag (lsbFlag (s.reg src))
  .next (s₁.setReg x (s₁.reg src >>> 1))

/-- `8xyE`: VF <- the source's bit 7, then V[x] <- the source shifted left, read after the VF write (R81). -/
def execShl (x y : Reg) (s : State) : Out :=
  let src := shiftOperand s.cfg.shlSource x y
  let s₁ := s.setFlag (msbFlag (s.reg src))
  .next (s₁.setReg x (s₁.reg src <<< 1))

/-- `Cxkk`: V[x] <- r & kk, r a free random byte drawn by this execution (R82, log 3). -/
def execRnd (x : Reg) (kk : Byte) (s : State) : Out := .next ((s.setReg x (s.randomByte &&& kk)).countDraw)

end Sys2Proof.Machine
end

