-- ==== Sys2Proof/Machine/ControlFlow.lean ====
section
/-! DEFINITION. Control transfer (40_control_flow.md R62 to R70). On entry of every meaning pc holds a + 2
(30_encoding.md R47). -/

namespace Sys2Proof.Machine

/-- `00EE`, return: pop into pc; StackUnderflow when the stack is empty (R62). -/
def execRet (s : State) : Out :=
  match s.pop with
  | some (w, s') => .next (s'.setPc w)
  | none => s.raise .ret .stackUnderflow none

/-- `1nnn`, jump (R63). -/
def execJp (nnn : Addr12) (s : State) : Out := .next (s.setPc (zextAddr nnn))

/-- `2nnn`, call: push pc, then jump, one transition; StackOverflow when SP = STACK_DEPTH (R64). -/
def execCall (nnn : Addr12) (s : State) : Out :=
  if s.sp = s.cfg.stackDepth then s.raise (.call nnn) .stackOverflow (some s.sp)
  else .next ((s.push s.pc).setPc (zextAddr nnn))

/-- `Bnnn`, jump to nnn + V0, not masked to 12 bits (R65). -/
def execJpV0 (nnn : Addr12) (s : State) : Out := .next (s.setPc (zextAddr nnn + zextByte (s.reg 0)))

/-- `3xkk`, skip if V[x] = kk (R66). -/
def execSeImm (x : Reg) (kk : Byte) (s : State) : Out := .next (s.skipIf (s.reg x == kk))

/-- `4xkk`, skip if V[x] ≠ kk (R67). -/
def execSneImm (x : Reg) (kk : Byte) (s : State) : Out := .next (s.skipIf (s.reg x != kk))

/-- `5xy0`, skip if V[x] = V[y] (R68). -/
def execSeReg (x y : Reg) (s : State) : Out := .next (s.skipIf (s.reg x == s.reg y))

/-- `9xy0`, skip if V[x] ≠ V[y] (R69). -/
def execSneReg (x y : Reg) (s : State) : Out := .next (s.skipIf (s.reg x != s.reg y))

end Sys2Proof.Machine
end

