-- ==== Sys2Proof/Machine/Display.lean ====
section
/-! DEFINITION. Clear and sprite draw (43_display.md R91 to R94). -/

namespace Sys2Proof.Machine

/-- A draw in progress: the framebuffer so far and whether a set bit has met an on pixel. -/
abbrev Drawing := Framebuffer × Bool

/-- One sprite bit, column col of row row, of a sprite at (cx, cy): a set bit checks for a collision, then flips its
pixel; a clear bit does nothing. Coordinates wrap (R91). -/
def drawBit (cx cy row : Nat) (b : Byte) (col : Nat) (d : Drawing) : Drawing :=
  if b.getLsbD (7 - col) then
    let px := columnOf (cx + col)
    let py := rowOf (cy + row)
    (Framebuffer.flip d.1 px py, d.2 || Framebuffer.pixel d.1 px py)
  else d

/-- One sprite row, bit 7 leftmost (R91). -/
def drawRow (cx cy row : Nat) (b : Byte) (d : Drawing) : Drawing :=
  (List.range 8).foldl (fun d col => drawBit cx cy row b col d) d

/-- The sprite's rows from row on (R93). -/
def drawRows (cx cy : Nat) : Nat → List Byte → Drawing → Drawing
  | _, [], d => d
  | row, b :: bs, d => drawRows cx cy (row + 1) bs (drawRow cx cy row b d)

/-- The XOR sprite engine: the bytes drawn at (cx, cy), with the collision (R91, R93). -/
def drawSprite (cx cy : Nat) (bs : List Byte) (fb : Framebuffer) : Drawing := drawRows cx cy 0 bs (fb, false)

/-- `00E0`: every pixel off, DIRTY set (R92). -/
def execCls (s : State) : Out := .next (s.drawScreen Framebuffer.blank)

/-- `Dxyn`: the coordinates are read, then the range is checked, then VF <- collision and the framebuffer is drawn on
and marked dirty; LoadOutOfBounds when n > 0 and I + n - 1 ≥ 4096 (R93; DEDUCED,
unsafe: its remark on drawing twice is not followed where its pseudocode differs, log 13). -/
def execDrw (x y : Reg) (n : Nibble) (s : State) : Out :=
  match s.loadBytes s.dataAddr (countOf n) with
  | some bs =>
    let d := drawSprite (s.reg x).toNat (s.reg y).toNat bs s.fb
    .next ((s.setFlag (collisionFlag d.2)).drawScreen d.1)
  | none => s.raise (.drw x y n) .loadOutOfBounds (some (firstOutOfBounds s.dataAddr))

end Sys2Proof.Machine
end

