-- ==== Sys2Proof/Machine/IndexMemory.lean ====
section
/-! DEFINITION. The index register and memory transfers (42_index_memory.md R84 to R90). A range is checked whole
before its first access, and I is never changed by an access. -/

namespace Sys2Proof.Machine

/-- `Annn`: I <- nnn (R84). -/
def execLdI (nnn : Addr12) (s : State) : Out := .next (s.setIndex (zextAddr nnn))

/-- `Fx1E`: I <- (I + V[x]) mod 2^16, no flag (R85). -/
def execAddI (x : Reg) (s : State) : Out := .next (s.setIndex (s.index + zextByte (s.reg x)))

/-- `Fx29`: I <- the glyph address of V[x]'s low digit (R86). -/
def execLdF (x : Reg) (s : State) : Out := .next (s.setIndex (glyphAddr (s.reg x)))

/-- `Fx33`: the decimal digits of V[x] to M[I..I+2]; StoreOutOfBounds when I + 2 ≥ 4096 (R87). -/
def execLdB (x : Reg) (s : State) : Out :=
  match s.storeBytes s.dataAddr (bcdDigits (s.reg x)) with
  | some s' => .next s'
  | none => s.raise (.ldB x) .storeOutOfBounds (some (firstOutOfBounds s.dataAddr))

/-- `Fx55`: V[0..x] to M[I..I+x]; StoreOutOfBounds when I + x ≥ 4096 (R88). -/
def execStRegs (x : Reg) (s : State) : Out :=
  match s.storeBytes s.dataAddr (s.regsUpTo x) with
  | some s' => .next s'
  | none => s.raise (.stRegs x) .storeOutOfBounds (some (firstOutOfBounds s.dataAddr))

/-- `Fx65`: V[0..x] from M[I..I+x]; LoadOutOfBounds when I + x ≥ 4096 (R89). -/
def execLdRegs (x : Reg) (s : State) : Out :=
  match s.loadBytes s.dataAddr (x + 1) with
  | some bs => .next (s.setRegs bs)
  | none => s.raise (.ldRegs x) .loadOutOfBounds (some (firstOutOfBounds s.dataAddr))

end Sys2Proof.Machine
end

