-- ==== Sys2Proof/Machine/Reserved.lean ====
section
/-! DEFINITION. The reserved no-op (30_encoding.md R58, R59): it reads and writes nothing; the fetch's pc + 2 is the
only effect of its step. One meaning for each reserved row of the opcode table. -/

namespace Sys2Proof.Machine

/-- The no-op (R58). -/
def noOp (s : State) : Out := .next s

/-- NOP_class_0: class 0 except 0x00E0 and 0x00EE (R52, R58). -/
def execNop0 (s : State) : Out := noOp s

/-- NOP_class_8: class 8 with n in 8, 9, A, B, C, D, F (R54, R58). -/
def execNop8 (s : State) : Out := noOp s

/-- NOP_class_E: class E with kk other than 9E, A1 (R55, R58). -/
def execNopE (s : State) : Out := noOp s

/-- NOP_class_F: class F with kk outside R56's nine values (R56, R58). -/
def execNopF (s : State) : Out := noOp s

end Sys2Proof.Machine
end

