-- ==== Sys2Proof/Machine/TimersKeys.lean ====
section
/-! DEFINITION. Timer access and key input (44_timers_keys.md R95 to R100). -/

namespace Sys2Proof.Machine

/-- `Fx07`: V[x] <- DT (R95). -/
def execLdVxDt (x : Reg) (s : State) : Out := .next (s.setReg x s.dt)

/-- `Fx15`: DT <- V[x] (R96). -/
def execLdDtVx (x : Reg) (s : State) : Out := .next (s.setDt (s.reg x))

/-- `Fx18`: ST <- V[x] (R97). -/
def execLdStVx (x : Reg) (s : State) : Out := .next (s.setSt (s.reg x))

/-- `Ex9E`: skip if key V[x] is pressed; KeyIndexOutOfRange when V[x] > 15 (R98). -/
def execSkp (x : Reg) (s : State) : Out :=
  match keyOf (s.reg x) with
  | some k => .next (s.skipIf s.key[k])
  | none => s.raise (.skp x) .keyIndexOutOfRange (some (s.reg x).toNat)

/-- `ExA1`: skip if key V[x] is released; KeyIndexOutOfRange when V[x] > 15 (R99). -/
def execSknp (x : Reg) (s : State) : Out :=
  match keyOf (s.reg x) with
  | some k => .next (s.skipIf (!s.key[k]))
  | none => s.raise (.sknp x) .keyIndexOutOfRange (some (s.reg x).toNat)

/-- `Fx0A`: V[x] <- the least pressed key, or pc back to this instruction when none is pressed (R100). -/
def execLdVxK (x : Reg) (s : State) : Out :=
  match s.firstKey with
  | some k => .next (s.setReg x (BitVec.ofNat 8 k))
  | none => .next s.rewindPc

end Sys2Proof.Machine
end

