-- ==== Sys2Proof/Machine/Step.lean ====
section
/-! DEFINITION. One step (30_encoding.md R47): the fatal and halted tests, the fetch, pc + 2, decode, execute. The step
result of R47 is the run status of the state the step answers (`State.status`, log 2). -/

namespace Sys2Proof.Machine

/-- `step`: a machine that is fatal or halted stays as it is; a fetch past the end of memory raises FetchOutOfBounds;
otherwise the decoded word is executed with pc already two further on (R47, R48). -/
def step (s : State) : Host.Outcome State Fault Refusal :=
  match s.status with
  | .fatal => .next s
  | .halted => .next s
  | .running =>
    match s.fetchWord with
    | none => s.raiseFetch
    | some w => exec (decodeWord w) s.advancePc

/-- The machine about to run the instruction of an opcode-table word: the word's two bytes stand where the next step
fetches, and where the machine could not fetch (a fatal stop, or pc past 4094) it is one that can, at 0x200. It stands
for the host's `load` (70_reset_and_hazards.md R126, log 8). -/
def State.withFetchWord (s : State) (nbits w : Nat) : State :=
  let at0 : Word := if s.pc.toNat + 2 ≤ memSize then s.pc else BitVec.ofNat 16 progBase
  let bytes := bytesOfWord (BitVec.ofNat 16 (w % 2 ^ nbits))
  { s with mem := Memory.writeBytes s.cfg.font s.mem at0.toNat bytes, pc := at0, fault := none }

end Sys2Proof.Machine
end

