-- ==== Sys2Proof/Machine/HostEvents.lean ====
section
/-! DEFINITION. The transitions the host makes beside `step` (60_exceptions.md R110 to R117): tick, load, set_key and
read_framebuffer, and the sound output. Each is atomic (R117, log 9). -/

namespace Sys2Proof.Machine

/-- A timer's decrement, stopping at zero (R110). -/
def decrement (b : Byte) : Byte := if b.toNat > 0 then b - 1 else b

/-- `tick()`: each positive timer loses one; nothing happens after a fatal stop (R110, R105). -/
def State.tick (s : State) : State :=
  if s.fault.isSome then s else (s.setDt (decrement s.dt)).setSt (decrement s.st)

/-- SOUND_ON (10_state.md R26, R111). -/
def State.soundOn (s : State) : Bool := decide (s.st.toNat > 0)

/-- `load(bytes)`: the first 3584 bytes go to 0x200 on, pc goes to 0x200, nothing else changes; nothing happens after
a fatal stop (R113, R105). -/
def State.load (s : State) (bytes : List Byte) : State :=
  if s.fault.isSome then s
  else { s with mem := Memory.writeBytes s.cfg.font s.mem progBase (bytes.take progCapacity)
                pc := BitVec.ofNat 16 progBase }

/-- The optional warning that `load` dropped bytes; it changes no state (R108, 93_implementation_defined.md I6;
DESIGN CHOICE, safe, log 11). -/
def loadTruncates (bytes : List Byte) : Bool := decide (bytes.length > progCapacity)

/-- `set_key(k, pressed)`: KEY[k] <- pressed; an index outside 0 to 15 is ignored (R114). -/
def State.setKey (s : State) (k : Int) (pressed : Bool) : State :=
  if h : 0 ≤ k ∧ k < 16 then { s with key := s.key.set k.toNat pressed (by omega) } else s

/-- What `read_framebuffer` returns: the pixels in row-major order, element py·64 + px, and DIRTY (R115). -/
structure FrameView where
  pixels : Vector Bool (32 * 64)
  dirty : Bool
  deriving DecidableEq, Repr

/-- The presenter's view (R115). -/
def State.frameView (s : State) : FrameView := { pixels := s.fb.flatten, dirty := s.dirty }

/-- `read_framebuffer()`: the view, and then DIRTY <- false (R115). -/
def State.readFramebuffer (s : State) : FrameView × State := (s.frameView, { s with dirty := false })

end Sys2Proof.Machine
end

