-- ==== Sys2Proof/Safety.lean ====
section
/-! DEFINITION. What claims about the machine are stated in: what an instruction leaves unchanged, when an instruction
faults (60_exceptions.md R101), which pixels a sprite hits (43_display.md R91), the transitions in any order (R117),
the reachable states and their invariant (10_state.md R21, R24, R30). -/

namespace Sys2Proof.Machine

/-! ## Frames -/

/-- The parts of the state beside the general registers and memory. -/
inductive Part where
  | index
  | pc
  | stack
  | dt
  | st
  | fb
  | dirty
  | key
  | fault
  | draws
  deriving DecidableEq, Repr

/-- t is s except, perhaps, the registers regs, the parts listed, and the bytes of memory at the addresses stored.
The parameters of construction never change. -/
structure UnchangedBut (s t : State) (regs : List Reg) (parts : List Part) (stored : List Nat) : Prop where
  regs_same : ∀ r, r ∉ regs → t.reg r = s.reg r
  index_same : .index ∉ parts → t.index = s.index
  pc_same : .pc ∉ parts → t.pc = s.pc
  stack_same : .stack ∉ parts → t.stack = s.stack
  dt_same : .dt ∉ parts → t.dt = s.dt
  st_same : .st ∉ parts → t.st = s.st
  fb_same : .fb ∉ parts → t.fb = s.fb
  dirty_same : .dirty ∉ parts → t.dirty = s.dirty
  key_same : .key ∉ parts → t.key = s.key
  fault_same : .fault ∉ parts → t.fault = s.fault
  draws_same : .draws ∉ parts → t.draws = s.draws
  memory_same : ∀ a, a ∉ stored → t.readByte a = s.readByte a
  cfg_same : t.cfg = s.cfg

/-! ## Faults -/

/-- R101's table, but for the fetch's row: when an instruction raises a fault, its cause, and the info recorded. -/
def faultCondition (i : Instr) (s : State) : Option (FaultCause × Option Nat) :=
  match i with
  | .ret => if s.sp = 0 then some (.stackUnderflow, none) else none
  | .call _ => if s.sp = s.cfg.stackDepth then some (.stackOverflow, some s.sp) else none
  | .ldB _ => if s.dataAddr + 2 ≥ 4096 then some (.storeOutOfBounds, some (max s.dataAddr 4096)) else none
  | .stRegs x => if s.dataAddr + x ≥ 4096 then some (.storeOutOfBounds, some (max s.dataAddr 4096)) else none
  | .ldRegs x => if s.dataAddr + x ≥ 4096 then some (.loadOutOfBounds, some (max s.dataAddr 4096)) else none
  | .drw _ _ n =>
    if n.toNat > 0 ∧ s.dataAddr + n.toNat - 1 ≥ 4096 then some (.loadOutOfBounds, some (max s.dataAddr 4096)) else none
  | .skp x => if (s.reg x).toNat > 15 then some (.keyIndexOutOfRange, some (s.reg x).toNat) else none
  | .sknp x => if (s.reg x).toNat > 15 then some (.keyIndexOutOfRange, some (s.reg x).toNat) else none
  | .cls | .jp _ | .seImm _ _ | .sneImm _ _ | .seReg _ _ _ | .ldImm _ _ | .addImm _ _ | .ldReg _ _ | .orReg _ _
  | .andReg _ _ | .xorReg _ _ | .addReg _ _ | .subReg _ _ | .shr _ _ | .subnReg _ _ | .shl _ _ | .sneReg _ _ _
  | .ldI _ | .jpV0 _ | .rnd _ _ | .ldVxDt _ | .ldVxK _ | .ldDtVx _ | .ldStVx _ | .addI _ | .ldF _ | .nop0 _
  | .nop8 _ _ _ | .nopE _ _ | .nopF _ _ => none

/-- The fault record says what R101 and R102 say of its cause, on a machine whose pc is pc. -/
def FaultRecord.Consistent (r : FaultRecord) (pc : Word) : Prop :=
  match r.cause with
  | .fetchOutOfBounds => r.instrAddr = 4095 ∧ r.word = none ∧ r.info = some 4096 ∧ pc = 4095
  | .stackUnderflow => r.instrAddr.toNat ≤ 4094 ∧ r.word.isSome ∧ r.info = none ∧ pc = r.instrAddr + 2
  | .stackOverflow =>
    r.instrAddr.toNat ≤ 4094 ∧ r.word.isSome ∧ (∃ n, r.info = some n ∧ 16 ≤ n) ∧ pc = r.instrAddr + 2
  | .storeOutOfBounds | .loadOutOfBounds =>
    r.instrAddr.toNat ≤ 4094 ∧ r.word.isSome ∧ (∃ n, r.info = some n ∧ 4096 ≤ n) ∧ pc = r.instrAddr + 2
  | .keyIndexOutOfRange =>
    r.instrAddr.toNat ≤ 4094 ∧ r.word.isSome ∧ (∃ n, r.info = some n ∧ 16 ≤ n ∧ n ≤ 255) ∧ pc = r.instrAddr + 2

/-! ## Registers an instruction may write -/

/-- The registers an instruction writes besides its flag (10_state.md R18, column "writes"). -/
def destinationRegs (i : Instr) : List Reg :=
  match i with
  | .ldImm x _ | .addImm x _ | .ldReg x _ | .orReg x _ | .andReg x _ | .xorReg x _ | .addReg x _ | .subReg x _
  | .shr x _ | .subnReg x _ | .shl x _ | .rnd x _ | .ldVxDt x | .ldVxK x => [x]
  | .ldRegs x => (List.finRange 16).filter (fun r => decide (r ≤ x))
  | .cls | .ret | .jp _ | .call _ | .seImm _ _ | .sneImm _ _ | .seReg _ _ _ | .sneReg _ _ _ | .ldI _ | .jpV0 _
  | .drw _ _ _ | .skp _ | .sknp _ | .ldDtVx _ | .ldStVx _ | .addI _ | .ldF _ | .ldB _ | .stRegs _ | .nop0 _
  | .nop8 _ _ _ | .nopE _ _ | .nopF _ _ => []

/-- The instructions that write VF as a side effect (10_state.md R17). -/
def writesFlag (i : Instr) : Bool :=
  match i with
  | .addReg _ _ | .subReg _ _ | .shr _ _ | .subnReg _ _ | .shl _ _ | .drw _ _ _ => true
  | .cls | .ret | .jp _ | .call _ | .seImm _ _ | .sneImm _ _ | .seReg _ _ _ | .ldImm _ _ | .addImm _ _ | .ldReg _ _
  | .orReg _ _ | .andReg _ _ | .xorReg _ _ | .sneReg _ _ _ | .ldI _ | .jpV0 _ | .rnd _ _ | .skp _ | .sknp _
  | .ldVxDt _ | .ldVxK _ | .ldDtVx _ | .ldStVx _ | .addI _ | .ldF _ | .ldB _ | .stRegs _ | .ldRegs _ | .nop0 _
  | .nop8 _ _ _ | .nopE _ _ | .nopF _ _ => false

/-! ## Sprites -/

/-- A set bit of the h-row sprite with the given rows, drawn at (cx, cy), lands on pixel (px, py) (R91). -/
def SpriteHits (cx cy h : Nat) (row : Nat → Byte) (px : Fin 64) (py : Fin 32) : Prop :=
  ∃ r c, r < h ∧ c < 8 ∧ (row r).getLsbD (7 - c) = true ∧ px.val = (cx + c) % 64 ∧ py.val = (cy + r) % 32

/-! ## Transitions, reachable states and their invariant -/

/-- One transition of the machine, the core's or the host's; they interleave in any order and number (R117). -/
inductive Transition : State → State → Prop where
  /-- A step of the core that answers a next state (30_encoding.md R47). -/
  | step {s t : State} (h : step s = .next t) : Transition s t
  /-- A timer tick (R110). -/
  | tick (s : State) : Transition s s.tick
  /-- A program load (R113). -/
  | load (s : State) (bytes : List Byte) : Transition s (s.load bytes)
  /-- A key event (R114). -/
  | setKey (s : State) (k : Int) (pressed : Bool) : Transition s (s.setKey k pressed)
  /-- A presenter read (R115). -/
  | readFramebuffer (s : State) : Transition s s.readFramebuffer.2

/-- The states that a machine constructed with acceptable parameters can be in (70_reset_and_hazards.md R124, R117). -/
inductive Reachable : State → Prop where
  | constructed (cfg : Config) (h : cfg.Ok) : Reachable (State.construct cfg)
  | after {s t : State} (hs : Reachable s) (h : Transition s t) : Reachable t

/-- The invariant of the machine: acceptable parameters (R6), memory in canonical form, the stack within its depth
(R24) and holding only return addresses up to 4096, pc at most 0x10FE (R21), and a consistent fault record (R102). -/
structure State.Inv (s : State) : Prop where
  cfgOk : s.cfg.Ok
  memWf : Memory.wf s.cfg.font s.mem
  stackBounded : s.sp ≤ s.cfg.stackDepth
  stackEntries : ∀ w ∈ s.stack, w.toNat ≤ memSize
  pcBounded : s.pc.toNat ≤ 0x10FE
  faultConsistent : ∀ r, s.fault = some r → r.Consistent s.pc

/-- A safe step: the core may take a step from s without ending fatal. -/
def SafeStep (s : State) : Prop := ∃ t, step s = .next t ∧ t.status ≠ .fatal

end Sys2Proof.Machine
end

