-- ==== Sys2Proof/Certificates/Slice0/Obligations.lean ====
section
/-! DEFINITION. The statements for the provers. Each says which rule of spec/ it formalises; a clause that rests on a
choice of the model names its log entry. -/

open Sys2Proof Sys2Proof.Machine

/-- Decoding the encoding of a well-formed instruction gives it back (30_encoding.md R49, 30_encoding.md R51, 20_memory.md R36). Rests in part on the model's choice: log 10. -/
def Obligations.DecodeOfEncodeIsIdentity : Prop :=
  ∀ (i : Instr) (rest : List Byte), i.wf = true →
    decodeWord (encode i) = i ∧ decode (encodeBytes i ++ rest) = .ok (i, rest)

/-- Every word decodes to a well-formed instruction that encodes to that word (30_encoding.md R51, 30_encoding.md R53, 30_encoding.md R58, 30_encoding.md R59). Rests in part on the model's choice: log 10. -/
def Obligations.EncodeOfDecodeIsIdentity : Prop :=
  ∀ w : Word, (decodeWord w).wf = true ∧ encode (decodeWord w) = w

/-- The decoded instruction of every word is the one spec/opcode_table.json names (opcode_table.json, 30_encoding.md R51, 30_encoding.md R57, 30_encoding.md R58). -/
def Obligations.DecodeAgreesWithTheOpcodeTable : Prop :=
  ∀ w : Word, tableMnemonic w = some (decodeWord w).mnemonic

/-- No word fits two instruction rows of the opcode table (opcode_table.json, 30_encoding.md R51). -/
def Obligations.InstructionRowsNeverOverlap : Prop :=
  ∀ (w : Word) (r q : OpcodeRow), r ∈ instructionRows → q ∈ instructionRows → r.fits w = true → q.fits w = true → r = q

/-- A word of each family, written from the spec's encodings, decodes to its instruction (30_encoding.md R51, 30_encoding.md R52, 30_encoding.md R53, 30_encoding.md R58). Rests in part on the model's choice: log 10. -/
def Obligations.SpecWordsDecodeAsTheSpecSays : Prop :=
  decodeWord 0b0000_0000_1110_1110 = .ret ∧ decodeWord 0b0011_1010_0100_0010 = .seImm 10 0x42 ∧
  decodeWord 0b0101_0001_0010_0111 = .seReg 1 2 7 ∧ decodeWord 0b1000_0001_0010_0110 = .shr 1 2 ∧
  decodeWord 0b1010_0001_0010_0011 = .ldI 0x123 ∧ decodeWord 0b1100_0011_0000_1111 = .rnd 3 0x0F ∧
  decodeWord 0b1101_0001_0010_0101 = .drw 1 2 5 ∧ decodeWord 0b1110_0101_1010_0001 = .sknp 5 ∧
  decodeWord 0b1111_0011_0101_0101 = .stRegs 3 ∧ decodeWord 0b0000_0001_1110_0000 = .nop0 0x1E0 ∧
  decodeWord 0b1000_0001_0010_1011 = .nop8 1 2 0xB

/-- A step runs the instruction that the bytes at pc decode to, with pc two further on (10_state.md R31, 20_memory.md R36, 30_encoding.md R47, 30_encoding.md R48, 60_exceptions.md R102). Rests in part on the model's choice: log 1, log 2. -/
def Obligations.StepRunsTheDecodedInstruction : Prop :=
  ∀ s : State,
    (s.status = .fatal ↔ s.fault ≠ none) ∧ (s.status = .halted ↔ s.fault = none ∧ 4096 ≤ s.pc.toNat) ∧
    (s.status = .running ↔ s.fault = none ∧ s.pc.toNat < 4096) ∧
    (s.status ≠ .running → step s = .next s) ∧
    (s.status = .running → s.pc.toNat = 4095 →
      step s = .next { s with fault := some ⟨.fetchOutOfBounds, 4095, none, some 4096⟩ }) ∧
    (s.status = .running → s.pc.toNat < 4095 →
      step s = exec (decodeWord (s.readByte s.pc.toNat ++ s.readByte (s.pc.toNat + 1))) { s with pc := s.pc + 2 })

/-- No step of any state ends in a fault outcome or a refusal (93_implementation_defined.md, end of Part 1, 30_encoding.md R47, 30_encoding.md R51, 60_exceptions.md R102). Rests in part on the model's choice: log 1, log 2. -/
def Obligations.StepAlwaysAnswersANextState : Prop :=
  ∀ s : State, ∃ t, step s = .next t

/-- A reserved word changes nothing but pc (R58). -/
def Obligations.ReservedWordsAreNoOps : Prop :=
  (∀ w : Word, (decodeWord w).isReserved = true ↔
    (fieldC w = 0x0 ∧ w ≠ 0x00E0 ∧ w ≠ 0x00EE) ∨ (fieldC w = 0x8 ∧ fieldN w ∈ [0x8, 0x9, 0xA, 0xB, 0xC, 0xD, 0xF]) ∨
    (fieldC w = 0xE ∧ fieldKK w ∉ [0x9E, 0xA1]) ∨
    (fieldC w = 0xF ∧ fieldKK w ∉ [0x07, 0x0A, 0x15, 0x18, 0x1E, 0x29, 0x33, 0x55, 0x65])) ∧
  (∀ s nnn, exec (.nop0 nnn) s = .next s) ∧ (∀ s x y u, exec (.nop8 x y u) s = .next s) ∧
  (∀ s x kk, exec (.nopE x kk) s = .next s) ∧ (∀ s x kk, exec (.nopF x kk) s = .next s) ∧
  (∀ s w, s.status = .running → s.fetchWord = some w → (decodeWord w).isReserved = true →
    step s = .next { s with pc := s.pc + 2 })

/-- 00EE pops the stack into pc, and faults on an empty stack (R62). -/
def Obligations.ReturnPopsIntoPc : Prop :=
  ∀ (s : State) (a : Word), s.pc = a + 2 →
    decodeWord 0x00EE = .ret ∧
    (∀ (rest : List Word) (w : Word), s.stack = rest ++ [w] → ∃ t, exec .ret s = .next t ∧
      t.pc = w ∧ t.stack = rest ∧ UnchangedBut s t [] [.pc, .stack] []) ∧
    (s.stack = [] → ∃ t, exec .ret s = .next t ∧
      t.fault = some { cause := .stackUnderflow, instrAddr := a, word := some 0x00EE, info := none } ∧
      UnchangedBut s t [] [.fault] [])

/-- 1nnn sets pc to nnn (R63). -/
def Obligations.JumpSetsPc : Prop :=
  ∀ (nnn : Addr12) (s : State), decodeWord (formatA 0x1 nnn) = .jp nnn ∧
    ∃ t, exec (.jp nnn) s = .next t ∧ t.pc.toNat = nnn.toNat ∧ UnchangedBut s t [] [.pc] []

/-- 2nnn pushes the return address and jumps, and faults on a full stack (R64). -/
def Obligations.CallPushesThenJumps : Prop :=
  ∀ (nnn : Addr12) (s : State) (a : Word), s.pc = a + 2 →
    decodeWord (formatA 0x2 nnn) = .call nnn ∧
    (s.sp ≠ s.cfg.stackDepth → ∃ t, exec (.call nnn) s = .next t ∧
      t.stack = s.stack ++ [a + 2] ∧ t.sp = s.sp + 1 ∧ t.pc.toNat = nnn.toNat ∧ UnchangedBut s t [] [.pc, .stack] []) ∧
    (s.sp = s.cfg.stackDepth → ∃ t, exec (.call nnn) s = .next t ∧
      t.fault = some { cause := .stackOverflow, instrAddr := a, word := some (formatA 0x2 nnn), info := some s.sp } ∧
      UnchangedBut s t [] [.fault] [])

/-- Bnnn sets pc to nnn + V0 with no wrap (R65). -/
def Obligations.JumpWithOffsetAddsV0 : Prop :=
  ∀ (nnn : Addr12) (s : State), decodeWord (formatA 0xB nnn) = .jpV0 nnn ∧
    ∃ t, exec (.jpV0 nnn) s = .next t ∧ t.pc.toNat = nnn.toNat + (s.reg 0).toNat ∧ t.pc.toNat ≤ 0x10FE ∧
      UnchangedBut s t [] [.pc] []

/-- 3xkk, 4xkk, 5xy0 and 9xy0 advance pc by two exactly when their comparison holds (R66, R67, R68, R69). -/
def Obligations.SkipsCompareAndAdvance : Prop :=
  ∀ (x y : Reg) (kk : Byte) (u : Nibble) (s : State),
    decodeWord (formatB 0x3 x kk) = .seImm x kk ∧ decodeWord (formatB 0x4 x kk) = .sneImm x kk ∧
    decodeWord (formatC 0x5 x y u) = .seReg x y u ∧ decodeWord (formatC 0x9 x y u) = .sneReg x y u ∧
    (∃ t, exec (.seImm x kk) s = .next t ∧ (s.reg x = kk → t.pc = s.pc + 2) ∧ (s.reg x ≠ kk → t.pc = s.pc) ∧
      UnchangedBut s t [] [.pc] []) ∧
    (∃ t, exec (.sneImm x kk) s = .next t ∧ (s.reg x ≠ kk → t.pc = s.pc + 2) ∧ (s.reg x = kk → t.pc = s.pc) ∧
      UnchangedBut s t [] [.pc] []) ∧
    (∃ t, exec (.seReg x y u) s = .next t ∧ (s.reg x = s.reg y → t.pc = s.pc + 2) ∧ (s.reg x ≠ s.reg y → t.pc = s.pc) ∧
      UnchangedBut s t [] [.pc] []) ∧
    (∃ t, exec (.sneReg x y u) s = .next t ∧ (s.reg x ≠ s.reg y → t.pc = s.pc + 2) ∧ (s.reg x = s.reg y → t.pc = s.pc) ∧
      UnchangedBut s t [] [.pc] [])

/-- 6xkk loads kk and 7xkk adds kk modulo 256 with no flag (R71, R72). -/
def Obligations.ImmediateLoadAndAdd : Prop :=
  ∀ (x : Reg) (kk : Byte) (s : State),
    decodeWord (formatB 0x6 x kk) = .ldImm x kk ∧ decodeWord (formatB 0x7 x kk) = .addImm x kk ∧
    (∃ t, exec (.ldImm x kk) s = .next t ∧ t.reg x = kk ∧ UnchangedBut s t [x] [] []) ∧
    (∃ t, exec (.addImm x kk) s = .next t ∧ (t.reg x).toNat = ((s.reg x).toNat + kk.toNat) % 256 ∧
      UnchangedBut s t [x] [] [])

/-- 8xy0 to 8xy3 copy, OR, AND and XOR into V[x] and change nothing else (R73, R74, R75, R76). -/
def Obligations.CopyAndLogicWriteOnlyVx : Prop :=
  ∀ (x y : Reg) (s : State),
    decodeWord (formatC 0x8 x y 0x0) = .ldReg x y ∧ decodeWord (formatC 0x8 x y 0x1) = .orReg x y ∧
    decodeWord (formatC 0x8 x y 0x2) = .andReg x y ∧ decodeWord (formatC 0x8 x y 0x3) = .xorReg x y ∧
    (∃ t, exec (.ldReg x y) s = .next t ∧ t.reg x = s.reg y ∧ UnchangedBut s t [x] [] []) ∧
    (∃ t, exec (.orReg x y) s = .next t ∧
      (∀ k, (t.reg x).getLsbD k = ((s.reg x).getLsbD k || (s.reg y).getLsbD k)) ∧ UnchangedBut s t [x] [] []) ∧
    (∃ t, exec (.andReg x y) s = .next t ∧
      (∀ k, (t.reg x).getLsbD k = ((s.reg x).getLsbD k && (s.reg y).getLsbD k)) ∧ UnchangedBut s t [x] [] []) ∧
    (∃ t, exec (.xorReg x y) s = .next t ∧
      (∀ k, (t.reg x).getLsbD k = ((s.reg x).getLsbD k ^^ (s.reg y).getLsbD k)) ∧ UnchangedBut s t [x] [] [])

/-- 8xy4: VF is the carry, then V[x] is the sum modulo 256, the sum winning when x is 15 (R77). -/
def Obligations.AddSetsCarryThenSum : Prop :=
  ∀ (x y : Reg) (s : State), decodeWord (formatC 0x8 x y 0x4) = .addReg x y ∧
    ∃ t, exec (.addReg x y) s = .next t ∧
      (t.reg x).toNat = ((s.reg x).toNat + (s.reg y).toNat) % 256 ∧
      (x ≠ VF → (t.reg VF).toNat = if (s.reg x).toNat + (s.reg y).toNat > 255 then 1 else 0) ∧
      UnchangedBut s t [x, VF] [] []

/-- 8xy5: VF is NOT borrow, then V[x] is V[x] - V[y] read after the VF write (R78). -/
def Obligations.SubtractSetsNoBorrowThenDifference : Prop :=
  ∀ (x y : Reg) (s : State), decodeWord (formatC 0x8 x y 0x5) = .subReg x y ∧
    ∃ t, exec (.subReg x y) s = .next t ∧
      (x ≠ VF → (t.reg VF).toNat = if (s.reg x).toNat ≥ (s.reg y).toNat then 1 else 0) ∧
      (t.reg x).toNat =
        ((if x = VF then (if (s.reg x).toNat ≥ (s.reg y).toNat then 1 else 0) else (s.reg x).toNat) + 256 -
          (if y = VF then (if (s.reg x).toNat ≥ (s.reg y).toNat then 1 else 0) else (s.reg y).toNat)) % 256 ∧
      UnchangedBut s t [x, VF] [] []

/-- 8xy7: VF is NOT borrow, then V[x] is V[y] - V[x] read after the VF write (R79). -/
def Obligations.ReverseSubtractSetsNoBorrowThenDifference : Prop :=
  ∀ (x y : Reg) (s : State), decodeWord (formatC 0x8 x y 0x7) = .subnReg x y ∧
    ∃ t, exec (.subnReg x y) s = .next t ∧
      (x ≠ VF → (t.reg VF).toNat = if (s.reg y).toNat ≥ (s.reg x).toNat then 1 else 0) ∧
      (t.reg x).toNat =
        ((if y = VF then (if (s.reg y).toNat ≥ (s.reg x).toNat then 1 else 0) else (s.reg y).toNat) + 256 -
          (if x = VF then (if (s.reg y).toNat ≥ (s.reg x).toNat then 1 else 0) else (s.reg x).toNat)) % 256 ∧
      UnchangedBut s t [x, VF] [] []

/-- 8xy6: VF is bit 0 of the source, then V[x] is the source shifted right, for both values of SHR_SRC (R80). -/
def Obligations.ShiftRightReadsItsSourceAfterTheFlag : Prop :=
  ∀ (x y src : Reg) (s : State),
    (s.cfg.shrSource = .y ∧ src = y ∨ s.cfg.shrSource = .x ∧ src = x) →
    decodeWord (formatC 0x8 x y 0x6) = .shr x y ∧
    ∃ t, exec (.shr x y) s = .next t ∧
      (x ≠ VF → (t.reg VF).toNat = (s.reg src).toNat % 2) ∧
      (t.reg x).toNat = (if src = VF then (s.reg src).toNat % 2 else (s.reg src).toNat) / 2 ∧
      UnchangedBut s t [x, VF] [] []

/-- 8xyE: VF is bit 7 of the source, then V[x] is the source shifted left, for both values of SHL_SRC (R81). -/
def Obligations.ShiftLeftReadsItsSourceAfterTheFlag : Prop :=
  ∀ (x y src : Reg) (s : State),
    (s.cfg.shlSource = .x ∧ src = x ∨ s.cfg.shlSource = .y ∧ src = y) →
    decodeWord (formatC 0x8 x y 0xE) = .shl x y ∧
    ∃ t, exec (.shl x y) s = .next t ∧
      (x ≠ VF → (t.reg VF).toNat = (s.reg src).toNat / 128) ∧
      (t.reg x).toNat = 2 * (if src = VF then (s.reg src).toNat / 128 else (s.reg src).toNat) % 256 ∧
      UnchangedBut s t [x, VF] [] []

/-- Cxkk puts a free random byte AND kk into V[x], a new draw each time (41_alu.md R82, 00_scope.md R9). Rests in part on the model's choice: log 3. -/
def Obligations.RandomByteIsMasked : Prop :=
  ∀ (x : Reg) (kk : Byte) (s : State), decodeWord (formatB 0xC x kk) = .rnd x kk ∧
    ∃ t, exec (.rnd x kk) s = .next t ∧
      (∀ k, (t.reg x).getLsbD k = ((Config.randomByte s.draws).getLsbD k && kk.getLsbD k)) ∧
      t.draws = s.draws + 1 ∧ UnchangedBut s t [x] [.draws] []

/-- Annn, Fx1E and Fx29 write I and nothing else (R84, R85, R86). -/
def Obligations.IndexLoadAddAndGlyph : Prop :=
  ∀ (x : Reg) (nnn : Addr12) (s : State),
    decodeWord (formatA 0xA nnn) = .ldI nnn ∧ decodeWord (formatB 0xF x 0x1E) = .addI x ∧
    decodeWord (formatB 0xF x 0x29) = .ldF x ∧
    (∃ t, exec (.ldI nnn) s = .next t ∧ t.index.toNat = nnn.toNat ∧ UnchangedBut s t [] [.index] []) ∧
    (∃ t, exec (.addI x) s = .next t ∧ t.index.toNat = (s.index.toNat + (s.reg x).toNat) % 65536 ∧
      UnchangedBut s t [] [.index] []) ∧
    (∃ t, exec (.ldF x) s = .next t ∧ t.index.toNat = 0x050 + 5 * ((s.reg x).toNat % 16) ∧
      UnchangedBut s t [] [.index] [])

/-- Fx33 stores the three decimal digits of V[x] at I, or faults and stores nothing (R87). -/
def Obligations.BcdStoresThreeDigits : Prop :=
  ∀ (x : Reg) (s : State) (a : Word), s.pc = a + 2 → Memory.wf s.cfg.font s.mem →
    decodeWord (formatB 0xF x 0x33) = .ldB x ∧
    (s.index.toNat + 2 ≤ 4095 → ∃ t, exec (.ldB x) s = .next t ∧
      (t.readByte s.dataAddr).toNat = (s.reg x).toNat / 100 ∧
      (t.readByte (s.dataAddr + 1)).toNat = (s.reg x).toNat / 10 % 10 ∧
      (t.readByte (s.dataAddr + 2)).toNat = (s.reg x).toNat % 10 ∧
      UnchangedBut s t [] [] [s.dataAddr, s.dataAddr + 1, s.dataAddr + 2]) ∧
    (s.index.toNat + 2 > 4095 → ∃ t, exec (.ldB x) s = .next t ∧
      t.fault = some { cause := .storeOutOfBounds, instrAddr := a, word := some (formatB 0xF x 0x33),
                       info := some (max s.index.toNat 4096) } ∧
      UnchangedBut s t [] [.fault] [])

/-- Fx55 stores V0 to V[x] at I, or faults and stores nothing (R88). -/
def Obligations.StoreRegistersWritesVxBytes : Prop :=
  ∀ (x : Reg) (s : State) (a : Word), s.pc = a + 2 → Memory.wf s.cfg.font s.mem →
    decodeWord (formatB 0xF x 0x55) = .stRegs x ∧
    (s.index.toNat + x ≤ 4095 → ∃ t, exec (.stRegs x) s = .next t ∧
      (∀ r : Reg, r ≤ x → t.readByte (s.dataAddr + r) = s.reg r) ∧
      UnchangedBut s t [] [] ((List.range (x + 1)).map (s.dataAddr + ·))) ∧
    (s.index.toNat + x > 4095 → ∃ t, exec (.stRegs x) s = .next t ∧
      t.fault = some { cause := .storeOutOfBounds, instrAddr := a, word := some (formatB 0xF x 0x55),
                       info := some (max s.index.toNat 4096) } ∧
      UnchangedBut s t [] [.fault] [])

/-- Fx65 loads V0 to V[x] from I, or faults and loads nothing (R89). -/
def Obligations.LoadRegistersReadsVxBytes : Prop :=
  ∀ (x : Reg) (s : State) (a : Word), s.pc = a + 2 →
    decodeWord (formatB 0xF x 0x65) = .ldRegs x ∧
    (s.index.toNat + x ≤ 4095 → ∃ t, exec (.ldRegs x) s = .next t ∧
      (∀ r : Reg, r ≤ x → t.reg r = s.readByte (s.dataAddr + r)) ∧
      UnchangedBut s t (destinationRegs (.ldRegs x)) [] [] ∧ (∀ r : Reg, x < r → t.reg r = s.reg r)) ∧
    (s.index.toNat + x > 4095 → ∃ t, exec (.ldRegs x) s = .next t ∧
      t.fault = some { cause := .loadOutOfBounds, instrAddr := a, word := some (formatB 0xF x 0x65),
                       info := some (max s.index.toNat 4096) } ∧
      UnchangedBut s t [] [.fault] [])

/-- Bytes that Fx55 stores are the word a later fetch at their address gives (20_memory.md R45, 70_reset_and_hazards.md R128, 20_memory.md R36). -/
def Obligations.StoredBytesAreFetched : Prop :=
  ∀ (x r q : Reg) (s : State), Memory.wf s.cfg.font s.mem → s.index.toNat + x ≤ 4095 → q.val = r.val + 1 → q ≤ x →
    ∃ t, exec (.stRegs x) s = .next t ∧
      (t.setPc (s.index + BitVec.ofNat 16 r)).fetchWord = some (s.reg r ++ s.reg q)

/-- Two canonical memories that read alike at every address are the same list (10_state.md R22, 20_memory.md R35). Rests in part on the model's choice: log 7. -/
def Obligations.CanonicalMemoriesReadingAlikeAreEqual : Prop :=
  ∀ (font : Font) (m n : Memory), Memory.wf font m → Memory.wf font n →
    (∀ a, Memory.read font m a = Memory.read font n a) → m = n

/-- 00E0 turns every pixel off, sets DIRTY, and changes nothing else (R92). -/
def Obligations.ClearTurnsEveryPixelOff : Prop :=
  ∀ s : State, decodeWord 0x00E0 = .cls ∧
    ∃ t, exec .cls s = .next t ∧ (∀ px py, t.pixel px py = false) ∧ t.dirty = true ∧
      UnchangedBut s t [] [.fb, .dirty] []

/-- Dxyn inverts exactly the pixels its set bits hit and reports a collision in VF, or faults and draws nothing (R93). -/
def Obligations.DrawFlipsExactlyTheHitPixels : Prop :=
  ∀ (x y : Reg) (n : Nibble) (s : State) (a : Word), s.pc = a + 2 →
    decodeWord (formatC 0xD x y n) = .drw x y n ∧
    (n.toNat = 0 ∨ s.index.toNat + n.toNat - 1 ≤ 4095 → ∃ t, exec (.drw x y n) s = .next t ∧
      (∀ px py, SpriteHits (s.reg x).toNat (s.reg y).toNat n.toNat (fun r => s.readByte (s.dataAddr + r)) px py →
        t.pixel px py = !s.pixel px py) ∧
      (∀ px py, ¬SpriteHits (s.reg x).toNat (s.reg y).toNat n.toNat (fun r => s.readByte (s.dataAddr + r)) px py →
        t.pixel px py = s.pixel px py) ∧
      ((∃ px py, SpriteHits (s.reg x).toNat (s.reg y).toNat n.toNat (fun r => s.readByte (s.dataAddr + r)) px py ∧
        s.pixel px py = true) → t.reg VF = 1) ∧
      ((∀ px py, SpriteHits (s.reg x).toNat (s.reg y).toNat n.toNat (fun r => s.readByte (s.dataAddr + r)) px py →
        s.pixel px py = false) → t.reg VF = 0) ∧
      t.dirty = true ∧ UnchangedBut s t [VF] [.fb, .dirty] []) ∧
    (n.toNat > 0 → s.index.toNat + n.toNat - 1 > 4095 → ∃ t, exec (.drw x y n) s = .next t ∧
      t.fault = some { cause := .loadOutOfBounds, instrAddr := a, word := some (formatC 0xD x y n),
                       info := some (max s.index.toNat 4096) } ∧
      UnchangedBut s t [] [.fault] [])

/-- Drawing the same sprite twice at the same place restores the framebuffer (43_display.md R93, corner cases, 43_display.md R91, 95_test_vectors.md S4). Rests in part on the model's choice: log 13. -/
def Obligations.DrawingTwiceRestoresTheScreen : Prop :=
  ∀ (x y : Reg) (n : Nibble) (s : State), x ≠ VF → y ≠ VF → (n.toNat = 0 ∨ s.index.toNat + n.toNat - 1 ≤ 4095) →
    ∃ t u, exec (.drw x y n) s = .next t ∧ exec (.drw x y n) t = .next u ∧
      (∀ px py, u.pixel px py = s.pixel px py) ∧
      (u.reg VF = 1 ↔ ∃ px py, SpriteHits (s.reg x).toNat (s.reg y).toNat n.toNat
        (fun r => s.readByte (s.dataAddr + r)) px py ∧ s.pixel px py = false)

/-- R93's remark taken for every framebuffer: the second of two equal draws reports VF = 1 iff the sprite has a set bit (43_display.md R93, corner cases). Rests in part on the model's choice: log 13. -/
def Obligations.SecondDrawReportsEverySetBit : Prop :=
  ∀ (x y : Reg) (n : Nibble) (s t u : State), x ≠ VF → y ≠ VF → s.fault = none →
    (n.toNat = 0 ∨ s.index.toNat + n.toNat - 1 ≤ 4095) →
    exec (.drw x y n) s = .next t → exec (.drw x y n) t = .next u →
    (u.reg VF = 1 ↔ ∃ r c, r < n.toNat ∧ c < 8 ∧ (s.readByte (s.dataAddr + r)).getLsbD (7 - c) = true)

/-- No instruction but 00E0 and Dxyn changes the framebuffer, and no host transition does (R94). -/
def Obligations.OnlyClearAndDrawChangeTheScreen : Prop :=
  (∀ (i : Instr) (s t : State), exec i s = .next t → i ≠ .cls → (∀ x y n, i ≠ .drw x y n) → t.fb = s.fb) ∧
  (∀ s : State, s.tick.fb = s.fb ∧ (∀ bytes, (s.load bytes).fb = s.fb) ∧
    (∀ k p, (s.setKey k p).fb = s.fb) ∧ s.readFramebuffer.2.fb = s.fb)

/-- Fx07 reads DT; Fx15 and Fx18 set DT and ST (R95, R96, R97). -/
def Obligations.TimerReadsAndWrites : Prop :=
  ∀ (x : Reg) (s : State),
    decodeWord (formatB 0xF x 0x07) = .ldVxDt x ∧ decodeWord (formatB 0xF x 0x15) = .ldDtVx x ∧
    decodeWord (formatB 0xF x 0x18) = .ldStVx x ∧
    (∃ t, exec (.ldVxDt x) s = .next t ∧ t.reg x = s.dt ∧ UnchangedBut s t [x] [] []) ∧
    (∃ t, exec (.ldDtVx x) s = .next t ∧ t.dt = s.reg x ∧ UnchangedBut s t [] [.dt] []) ∧
    (∃ t, exec (.ldStVx x) s = .next t ∧ t.st = s.reg x ∧ (t.soundOn = true ↔ (s.reg x).toNat > 0) ∧
      UnchangedBut s t [] [.st] [])

/-- Ex9E and ExA1 skip on a pressed and a released key, and fault on an index above 15 (R98, R99). -/
def Obligations.KeySkipsTestTheLatch : Prop :=
  ∀ (x : Reg) (s : State) (a : Word), s.pc = a + 2 →
    decodeWord (formatB 0xE x 0x9E) = .skp x ∧ decodeWord (formatB 0xE x 0xA1) = .sknp x ∧
    (∀ k : Reg, (s.reg x).toNat = k → ∃ t, exec (.skp x) s = .next t ∧
      (s.key[k] = true → t.pc = s.pc + 2) ∧ (s.key[k] = false → t.pc = s.pc) ∧ UnchangedBut s t [] [.pc] []) ∧
    (∀ k : Reg, (s.reg x).toNat = k → ∃ t, exec (.sknp x) s = .next t ∧
      (s.key[k] = false → t.pc = s.pc + 2) ∧ (s.key[k] = true → t.pc = s.pc) ∧ UnchangedBut s t [] [.pc] []) ∧
    ((s.reg x).toNat > 15 →
      (∃ t, exec (.skp x) s = .next t ∧
        t.fault = some { cause := .keyIndexOutOfRange, instrAddr := a, word := some (formatB 0xE x 0x9E),
                         info := some (s.reg x).toNat } ∧ UnchangedBut s t [] [.fault] []) ∧
      (∃ t, exec (.sknp x) s = .next t ∧
        t.fault = some { cause := .keyIndexOutOfRange, instrAddr := a, word := some (formatB 0xE x 0xA1),
                         info := some (s.reg x).toNat } ∧ UnchangedBut s t [] [.fault] []))

/-- Fx0A stores the least pressed key, or sets pc back to its own address (R100). -/
def Obligations.KeyWaitTakesTheLeastKeyOrReissues : Prop :=
  ∀ (x : Reg) (s : State) (a : Word), s.pc = a + 2 →
    decodeWord (formatB 0xF x 0x0A) = .ldVxK x ∧
    (∀ k : Reg, s.key[k] = true → (∀ j : Reg, j < k → s.key[j] = false) → ∃ t, exec (.ldVxK x) s = .next t ∧
      (t.reg x).toNat = k ∧ UnchangedBut s t [x] [] []) ∧
    ((∀ k : Reg, s.key[k] = false) → ∃ t, exec (.ldVxK x) s = .next t ∧
      t.pc = a ∧ UnchangedBut s t [] [.pc] [])

/-- A step on Fx0A with no key pressed answers the same state (44_timers_keys.md R100, 95_test_vectors.md S7). -/
def Obligations.WaitingForAKeyChangesNothing : Prop :=
  ∀ (x : Reg) (s : State), s.status = .running → s.fetchWord = some (formatB 0xF x 0x0A) →
    (∀ k : Reg, s.key[k] = false) → step s = .next s

/-- 2nnn and then 00EE return to the instruction after the call with the stack as it was (40_control_flow.md R62, 40_control_flow.md R64, 95_test_vectors.md S6). -/
def Obligations.CallThenReturnComesBack : Prop :=
  ∀ (nnn : Addr12) (s : State) (p : Word), s.sp ≠ s.cfg.stackDepth →
    ∃ t u, exec (.call nnn) s = .next t ∧ exec .ret { t with pc := p } = .next u ∧ u = s

/-- An instruction changes no register but its destination, and VF when it is one of the six flag writers (10_state.md R17, 10_state.md R18). -/
def Obligations.OnlyFlagInstructionsWriteVfUnnamed : Prop :=
  ∀ (i : Instr) (s t : State), exec i s = .next t →
    (∀ r : Reg, r ≠ VF → r ∉ destinationRegs i → t.reg r = s.reg r) ∧
    (writesFlag i = false → VF ∉ destinationRegs i → t.reg VF = s.reg VF)

/-- I, the stack, the timers, the keys, memory and the draw count change only through the instructions the rules name (10_state.md R19, 10_state.md R24, 10_state.md R25, 10_state.md R26, 10_state.md R28, 10_state.md R29, 20_memory.md R35, 92_eei_decisions.md D28). Rests in part on the model's choice: log 3. -/
def Obligations.EachPartChangesOnlyThroughItsInstructions : Prop :=
  ∀ (i : Instr) (s t : State), exec i s = .next t →
    ((∀ nnn, i ≠ .ldI nnn) → (∀ x, i ≠ .addI x) → (∀ x, i ≠ .ldF x) → t.index = s.index) ∧
    (i ≠ .ret → (∀ nnn, i ≠ .call nnn) → t.stack = s.stack) ∧
    ((∀ x, i ≠ .ldDtVx x) → t.dt = s.dt) ∧ ((∀ x, i ≠ .ldStVx x) → t.st = s.st) ∧
    (i ≠ .cls → (∀ x y n, i ≠ .drw x y n) → t.dirty = s.dirty) ∧
    ((∀ x, i ≠ .ldB x) → (∀ x, i ≠ .stRegs x) → t.mem = s.mem) ∧
    t.key = s.key ∧ t.cfg = s.cfg ∧ ((∀ x kk, i ≠ .rnd x kk) → t.draws = s.draws)

/-- No step depends on DIRTY or on the sound timer (10_state.md R26, 10_state.md R28, 10_state.md R34, 60_exceptions.md R111). -/
def Obligations.DirtyAndSoundTimerAreNeverRead : Prop :=
  ∀ (s t : State) (d : Bool) (b : Byte), step s = .next t →
    ∃ (d' : Bool) (b' : Byte), step { s with dirty := d, st := b } = .next { t with dirty := d', st := b' }

/-- A running machine's step faults exactly when R101's table says, with R102's record, and leaves everything else (R101, R102, R103). -/
def Obligations.FaultsAreExactlyThoseOfTheTable : Prop :=
  (FaultCause.stackUnderflow.code = 1 ∧ FaultCause.stackOverflow.code = 2 ∧ FaultCause.fetchOutOfBounds.code = 3 ∧
    FaultCause.storeOutOfBounds.code = 4 ∧ FaultCause.loadOutOfBounds.code = 5 ∧
    FaultCause.keyIndexOutOfRange.code = 6) ∧
  ∀ s : State, s.status = .running → ∃ t, step s = .next t ∧
    (s.pc.toNat = 4095 →
      t.fault = some { cause := .fetchOutOfBounds, instrAddr := s.pc, word := none, info := some 4096 } ∧
      UnchangedBut s t [] [.fault] []) ∧
    (∀ w : Word, s.pc.toNat < 4095 → w = s.readByte s.pc.toNat ++ s.readByte (s.pc.toNat + 1) →
      (∀ cause info, faultCondition (decodeWord w) s = some (cause, info) →
        t.fault = some { cause := cause, instrAddr := s.pc, word := some w, info := info } ∧ t.pc = s.pc + 2 ∧
        UnchangedBut s t [] [.fault, .pc] []) ∧
      (faultCondition (decodeWord w) s = none → t.fault = none))

/-- Nothing clears FAULT: step, tick and load leave a fatal machine as it is, and every transition keeps its record (R105). -/
def Obligations.FatalMachineStaysFatal : Prop :=
  ∀ (s : State) (r : FaultRecord), s.fault = some r →
    s.status = .fatal ∧ step s = .next s ∧ s.tick = s ∧ (∀ bytes, s.load bytes = s) ∧
    (∀ (k : Int) (p : Bool), (∀ j : Reg, (s.setKey k p).key[j] = if (j.val : Int) = k then p else s.key[j]) ∧
      UnchangedBut s (s.setKey k p) [] [.key] []) ∧
    s.readFramebuffer.1 = s.frameView ∧ s.readFramebuffer.2.dirty = false ∧
    UnchangedBut s s.readFramebuffer.2 [] [.dirty] [] ∧
    (∀ t, Transition s t → t.fault = some r)

/-- A halted machine's step changes nothing, its timers still tick, and load makes it running at 0x200 (R107). -/
def Obligations.HaltedMachineWaitsForLoad : Prop :=
  ∀ s : State, s.fault = none → 4096 ≤ s.pc.toNat →
    s.status = .halted ∧ step s = .next s ∧
    s.tick.dt.toNat = s.dt.toNat - 1 ∧ s.tick.st.toNat = s.st.toNat - 1 ∧ UnchangedBut s s.tick [] [.dt, .st] [] ∧
    (∀ (k : Int) (p : Bool), (∀ j : Reg, (s.setKey k p).key[j] = if (j.val : Int) = k then p else s.key[j]) ∧
      UnchangedBut s (s.setKey k p) [] [.key] []) ∧
    s.readFramebuffer.1 = s.frameView ∧ s.readFramebuffer.2.dirty = false ∧
    UnchangedBut s s.readFramebuffer.2 [] [.dirty] [] ∧
    (∀ bytes, (s.load bytes).status = .running ∧ (s.load bytes).pc = 0x200 ∧ (s.load bytes).v = s.v ∧
      (s.load bytes).index = s.index ∧ (s.load bytes).stack = s.stack ∧ (s.load bytes).dt = s.dt ∧
      (s.load bytes).st = s.st ∧ (s.load bytes).fb = s.fb ∧ (s.load bytes).dirty = s.dirty ∧
      (s.load bytes).key = s.key ∧ (s.load bytes).draws = s.draws ∧ (s.load bytes).cfg = s.cfg ∧
      (Memory.wf s.cfg.font s.mem → ∀ a, a ∉ (List.range (min bytes.length 3584)).map (0x200 + ·) →
        (s.load bytes).readByte a = s.readByte a))

/-- A tick takes one from each positive timer, stops at zero, and does nothing after a fatal stop (R110). -/
def Obligations.TickDecrementsPositiveTimers : Prop :=
  ∀ s : State,
    (s.fault = none → s.tick.dt.toNat = s.dt.toNat - 1 ∧ s.tick.st.toNat = s.st.toNat - 1 ∧
      UnchangedBut s s.tick [] [.dt, .st] []) ∧
    (s.fault ≠ none → s.tick = s) ∧ (s.soundOn = true ↔ s.st.toNat > 0)

/-- n ticks with no step take n from each timer, stopping at zero (60_exceptions.md R110, 95_test_vectors.md S8). -/
def Obligations.TicksCountDownToZero : Prop :=
  ∀ (n : Nat) (s : State), s.fault = none →
    (State.tick^[n] s).dt.toNat = s.dt.toNat - n ∧ (State.tick^[n] s).st.toNat = s.st.toNat - n ∧
    UnchangedBut s (State.tick^[n] s) [] [.dt, .st] []

/-- load copies at most 3584 bytes to 0x200 on, sets pc to 0x200, and changes nothing else (R113). -/
def Obligations.LoadCopiesAndTruncates : Prop :=
  ∀ (s : State) (bytes : List Byte), Memory.wf s.cfg.font s.mem →
    (s.fault = none →
      (∀ i b, i < 3584 → bytes[i]? = some b → (s.load bytes).readByte (0x200 + i) = b) ∧ (s.load bytes).pc = 0x200 ∧
      UnchangedBut s (s.load bytes) [] [.pc] ((List.range (min bytes.length 3584)).map (0x200 + ·))) ∧
    (s.fault ≠ none → s.load bytes = s)

/-- set_key writes KEY[k] for k up to 15 and ignores every other index (R114). -/
def Obligations.SetKeyWritesOneLatchEntry : Prop :=
  ∀ (s : State) (k : Int) (p : Bool),
    (0 ≤ k → k ≤ 15 → (∀ j : Reg, (s.setKey k p).key[j] = if (j.val : Int) = k then p else s.key[j]) ∧
      UnchangedBut s (s.setKey k p) [] [.key] []) ∧
    (k < 0 ∨ 15 < k → s.setKey k p = s)

/-- read_framebuffer returns the pixels row by row with DIRTY, and clears DIRTY only (R115). -/
def Obligations.ReadFramebufferReturnsTheRowMajorView : Prop :=
  ∀ (s : State), (∀ (px : Fin 64) (py : Fin 32) (h : py.val * 64 + px.val < 32 * 64),
      s.readFramebuffer.1.pixels[py.val * 64 + px.val] = s.pixel px py) ∧
    s.readFramebuffer.1.dirty = s.dirty ∧ s.readFramebuffer.2.dirty = false ∧
    s.readFramebuffer.2.readFramebuffer.1.dirty = false ∧ UnchangedBut s s.readFramebuffer.2 [] [.dirty] []

/-- Construction gives every register, memory byte, pixel and key the value the spec states (R124). -/
def Obligations.ConstructionLeavesTheStatedValues : Prop :=
  ∀ cfg : Config, let s := State.construct cfg
    (∀ r, s.reg r = 0) ∧ s.index = 0 ∧ s.pc = 0x200 ∧ s.stack = [] ∧ s.dt = 0 ∧ s.st = 0 ∧
    (∀ (i : Nat) (h : i < 80), s.readByte (0x050 + i) = cfg.font[i]) ∧
    (∀ a, a < 0x050 ∨ 0x09F < a → s.readByte a = 0) ∧
    (∀ px py, s.pixel px py = false) ∧ s.dirty = false ∧ (∀ k : Reg, s.key[k] = false) ∧ s.fault = none

/-- The reset machine is constructed with STACK_DEPTH 16, SHR_SRC Y, SHL_SRC X and the default font (00_scope.md R6, 00_scope.md R7, 10_state.md R23). Rests in part on the model's choice: log 4, log 5. -/
def Obligations.ResetTakesTheDefaultParameters : Prop :=
  State.reset = State.construct Config.default ∧ State.reset.cfg.stackDepth = 16 ∧
  State.reset.cfg.shrSource = .y ∧ State.reset.cfg.shlSource = .x ∧
  (State.reset.loadBytes 0x050 5 = some [0xF0, 0x90, 0x90, 0x90, 0xF0]) ∧
  (State.reset.loadBytes 0x09B 5 = some [0xF0, 0x80, 0xF0, 0x80, 0x80])

/-- Every machine constructed with STACK_DEPTH at least 16 meets the invariant, the reset machine too (00_scope.md R6, 10_state.md R21, 10_state.md R24, 70_reset_and_hazards.md R124). -/
def Obligations.ConstructionMeetsTheInvariant : Prop :=
  (∀ cfg : Config, 16 ≤ cfg.stackDepth → (State.construct cfg).Inv) ∧ State.reset.Inv

/-- Every step from a state that meets the invariant answers a state that meets it (10_state.md R21, 10_state.md R24, 60_exceptions.md R101, 60_exceptions.md R102). -/
def Obligations.StepKeepsTheInvariant : Prop :=
  ∀ s t : State, s.Inv → step s = .next t → t.Inv

/-- Every reachable state meets the invariant, whatever the host does between steps (60_exceptions.md R117, 10_state.md R21, 10_state.md R24). -/
def Obligations.EveryTransitionKeepsTheInvariant : Prop :=
  (∀ s t : State, s.Inv → Transition s t → t.Inv) ∧ (∀ s : State, Reachable s → s.Inv)

/-- In every reachable state, no pc arithmetic of a step wraps at 16 bits (10_state.md R21, 92_eei_decisions.md D1). -/
def Obligations.ProgramCounterNeverWraps : Prop :=
  ∀ s t : State, Reachable s → s.status = .running → step s = .next t →
    s.advancePc.pc.toNat = s.pc.toNat + 2 ∧ t.pc.toNat ≤ 0x10FE ∧ (∀ w ∈ t.stack, w.toNat ≤ 4096)
end

