-- ==== Sys2Proof/Laws/Decode.lean ====
section
/-! SUPPORT. The fields of an encoded word are the fields it was built from, and the two bytes of a word make it
again (30_encoding.md R49, 20_memory.md R36). -/

namespace Sys2Proof

/-! ## The bits of the formats -/

theorem formatA_bits_12_4 (c : Nibble) (nnn : Addr12) : (formatA c nnn).extractLsb' 12 4 = c := by
  unfold formatA
  ext i hi
  simp only [BitVec.getElem_extractLsb', BitVec.getLsbD_append]
  simp +arith [BitVec.getLsbD_eq_getElem, hi]

theorem formatA_bits_0_12 (c : Nibble) (nnn : Addr12) : (formatA c nnn).extractLsb' 0 12 = nnn := by
  unfold formatA
  ext i hi
  simp only [BitVec.getElem_extractLsb', BitVec.getLsbD_append]
  simp +arith [BitVec.getLsbD_eq_getElem, hi]

theorem formatB_bits_12_4 (c : Nibble) (x : Reg) (kk : Byte) : (formatB c x kk).extractLsb' 12 4 = c := by
  unfold formatB
  ext i hi
  simp only [BitVec.getElem_extractLsb', BitVec.getLsbD_append]
  simp +arith [BitVec.getLsbD_eq_getElem, hi]

theorem formatB_bits_8_4 (c : Nibble) (x : Reg) (kk : Byte) : (formatB c x kk).extractLsb' 8 4 = BitVec.ofFin x := by
  unfold formatB
  ext i hi
  simp only [BitVec.getElem_extractLsb', BitVec.getLsbD_append]
  simp +arith [BitVec.getLsbD_eq_getElem, hi]

theorem formatB_bits_0_8 (c : Nibble) (x : Reg) (kk : Byte) : (formatB c x kk).extractLsb' 0 8 = kk := by
  unfold formatB
  ext i hi
  simp only [BitVec.getElem_extractLsb', BitVec.getLsbD_append]
  simp +arith [BitVec.getLsbD_eq_getElem, hi]

theorem formatC_bits_12_4 (c : Nibble) (x y : Reg) (n : Nibble) : (formatC c x y n).extractLsb' 12 4 = c := by
  unfold formatC
  ext i hi
  simp only [BitVec.getElem_extractLsb', BitVec.getLsbD_append]
  simp +arith [BitVec.getLsbD_eq_getElem, hi]

theorem formatC_bits_8_4 (c : Nibble) (x y : Reg) (n : Nibble) : (formatC c x y n).extractLsb' 8 4 = BitVec.ofFin x := by
  unfold formatC
  ext i hi
  simp only [BitVec.getElem_extractLsb', BitVec.getLsbD_append]
  simp +arith [BitVec.getLsbD_eq_getElem, hi]

theorem formatC_bits_4_4 (c : Nibble) (x y : Reg) (n : Nibble) : (formatC c x y n).extractLsb' 4 4 = BitVec.ofFin y := by
  unfold formatC
  ext i hi
  simp only [BitVec.getElem_extractLsb', BitVec.getLsbD_append]
  simp +arith [BitVec.getLsbD_eq_getElem, hi]

theorem formatC_bits_0_4 (c : Nibble) (x y : Reg) (n : Nibble) : (formatC c x y n).extractLsb' 0 4 = n := by
  unfold formatC
  ext i hi
  simp only [BitVec.getElem_extractLsb', BitVec.getLsbD_append]
  simp +arith [BitVec.getLsbD_eq_getElem, hi]

/-! ## The fields of the formats -/

@[simp] theorem fieldC_formatA (c : Nibble) (nnn : Addr12) : fieldC (formatA c nnn) = c := formatA_bits_12_4 c nnn

@[simp] theorem fieldNNN_formatA (c : Nibble) (nnn : Addr12) : fieldNNN (formatA c nnn) = nnn := formatA_bits_0_12 c nnn

@[simp] theorem fieldC_formatB (c : Nibble) (x : Reg) (kk : Byte) : fieldC (formatB c x kk) = c := formatB_bits_12_4 c x kk

@[simp] theorem fieldKK_formatB (c : Nibble) (x : Reg) (kk : Byte) : fieldKK (formatB c x kk) = kk := formatB_bits_0_8 c x kk

@[simp] theorem fieldC_formatC (c : Nibble) (x y : Reg) (n : Nibble) : fieldC (formatC c x y n) = c := formatC_bits_12_4 c x y n

@[simp] theorem fieldN_formatC (c : Nibble) (x y : Reg) (n : Nibble) : fieldN (formatC c x y n) = n := formatC_bits_0_4 c x y n

@[simp] theorem fieldX_formatB (c : Nibble) (x : Reg) (kk : Byte) : fieldX (formatB c x kk) = x :=
  congrArg BitVec.toFin (formatB_bits_8_4 c x kk)

@[simp] theorem fieldX_formatC (c : Nibble) (x y : Reg) (n : Nibble) : fieldX (formatC c x y n) = x :=
  congrArg BitVec.toFin (formatC_bits_8_4 c x y n)

@[simp] theorem fieldY_formatC (c : Nibble) (x y : Reg) (n : Nibble) : fieldY (formatC c x y n) = y :=
  congrArg BitVec.toFin (formatC_bits_4_4 c x y n)

/-! ## A word from its fields and from its bytes -/

theorem formatA_of_fields (w : Word) : formatA (fieldC w) (fieldNNN w) = w := by
  unfold formatA fieldC fieldNNN
  ext i hi
  simp only [BitVec.getElem_append, BitVec.getElem_extractLsb']
  split
  · simp [BitVec.getLsbD_eq_getElem, hi]
  · rw [show 12 + (i - 12) = i by omega, BitVec.getLsbD_eq_getElem]

theorem formatB_of_fields (w : Word) : formatB (fieldC w) (fieldX w) (fieldKK w) = w := by
  show w.extractLsb' 12 4 ++ w.extractLsb' 8 4 ++ w.extractLsb' 0 8 = w
  ext i hi
  simp only [BitVec.getElem_append, BitVec.getElem_extractLsb']
  split
  · simp [BitVec.getLsbD_eq_getElem, hi]
  · split
    · rw [show 8 + (i - 8) = i by omega, BitVec.getLsbD_eq_getElem]
    · rw [show 12 + (i - 8 - 4) = i by omega, BitVec.getLsbD_eq_getElem]

theorem formatC_of_fields (w : Word) : formatC (fieldC w) (fieldX w) (fieldY w) (fieldN w) = w := by
  show w.extractLsb' 12 4 ++ w.extractLsb' 8 4 ++ w.extractLsb' 4 4 ++ w.extractLsb' 0 4 = w
  ext i hi
  simp only [BitVec.getElem_append, BitVec.getElem_extractLsb']
  split
  · simp [BitVec.getLsbD_eq_getElem, hi]
  · split
    · rw [show 4 + (i - 4) = i by omega, BitVec.getLsbD_eq_getElem]
    · split
      · rw [show 8 + (i - 4 - 4) = i by omega, BitVec.getLsbD_eq_getElem]
      · rw [show 12 + (i - 4 - 4 - 4) = i by omega, BitVec.getLsbD_eq_getElem]

/-- The bytes of a word make the word. -/
theorem wordOfBytes_bytesOfWord (w : Word) : wordOfBytes (w.extractLsb' 8 8) (w.extractLsb' 0 8) = w := by
  unfold wordOfBytes
  ext i hi
  simp only [BitVec.getElem_append, BitVec.getElem_extractLsb']
  split
  · simp [BitVec.getLsbD_eq_getElem, hi]
  · rw [show 8 + (i - 8) = i by omega, BitVec.getLsbD_eq_getElem]

/-- Decoding the bytes of an instruction and any bytes after them gives the decoding of its word. -/
theorem decode_encodeBytes (i : Instr) (rest : List Byte) :
    decode (encodeBytes i ++ rest) = .ok (decodeWord (encode i), rest) := by
  simp only [encodeBytes, bytesOfWord, List.cons_append, List.nil_append, decode, wordOfBytes_bytesOfWord]

end Sys2Proof
end

