-- ==== Sys2Proof/Laws/Display.lean ====
section
/-! SUPPORT. The sprite engine, said once (43_display.md R91): what drawing does to every pixel and to the collision,
as a set of hit pixels; sets of different cells compose because their pixels differ. -/

namespace Sys2Proof.Machine

/-! ## Pixels -/

theorem pixel_setPixel (fb : Framebuffer) (px qx : Fin 64) (py qy : Fin 32) (b : Bool) :
    Framebuffer.pixel (Framebuffer.setPixel fb px py b) qx qy =
      if qx = px ∧ qy = py then b else Framebuffer.pixel fb qx qy := by
  simp only [Framebuffer.pixel, Framebuffer.setPixel, Fin.getElem_fin, Vector.getElem_set, Fin.ext_iff]
  by_cases hy : qy.val = py.val
  · by_cases hx : qx.val = px.val
    · simp [hx, hy]
    · have hx' : ¬px.val = qx.val := fun h => hx h.symm
      simp [hy, hx, hx']
  · have hy' : ¬py.val = qy.val := fun h => hy h.symm
    simp [hy, hy']

@[simp] theorem pixel_blank (px : Fin 64) (py : Fin 32) : Framebuffer.pixel Framebuffer.blank px py = false := by
  simp [Framebuffer.pixel, Framebuffer.blank]

theorem pixel_flip (fb : Framebuffer) (px qx : Fin 64) (py qy : Fin 32) :
    Framebuffer.pixel (Framebuffer.flip fb px py) qx qy =
      if qx = px ∧ qy = py then !Framebuffer.pixel fb qx qy else Framebuffer.pixel fb qx qy := by
  rw [Framebuffer.flip, pixel_setPixel]
  split
  case isTrue h => rw [h.1, h.2]
  case isFalse => rfl

/-! ## Drawings -/

/-- The drawing d' is the drawing d with the pixels of a set inverted, and with a collision added if one of them
was on. -/
structure Draws (hits : Fin 64 → Fin 32 → Prop) (d d' : Drawing) : Prop where
  hit : ∀ px py, hits px py → Framebuffer.pixel d'.1 px py = !Framebuffer.pixel d.1 px py
  missed : ∀ px py, ¬hits px py → Framebuffer.pixel d'.1 px py = Framebuffer.pixel d.1 px py
  collision : d'.2 = true ↔ d.2 = true ∨ ∃ px py, hits px py ∧ Framebuffer.pixel d.1 px py = true

theorem Draws.refl (d : Drawing) : Draws (fun _ _ => False) d d := ⟨by simp, by simp, by simp⟩

/-- Two sets with no pixel in common, drawn one after the other, are their union drawn. -/
theorem Draws.comp {f g : Fin 64 → Fin 32 → Prop} {d e k : Drawing} (h₁ : Draws f d e) (h₂ : Draws g e k)
    (hfg : ∀ px py, f px py → ¬g px py) : Draws (fun px py => f px py ∨ g px py) d k where
  hit px py := by
    rintro (hf | hg)
    · rw [h₂.missed px py (hfg px py hf), h₁.hit px py hf]
    · rw [h₂.hit px py hg, h₁.missed px py (fun hf => hfg px py hf hg)]
  missed px py h := by
    rw [h₂.missed px py (fun hg => h (.inr hg)), h₁.missed px py (fun hf => h (.inl hf))]
  collision := by
    rw [h₂.collision, h₁.collision]
    constructor
    · rintro ((h | ⟨px, py, hf, h⟩) | ⟨px, py, hg, h⟩)
      · exact .inl h
      · exact .inr ⟨px, py, .inl hf, h⟩
      · exact .inr ⟨px, py, .inr hg, by rwa [h₁.missed px py (fun hf => hfg px py hf hg)] at h⟩
    · rintro (h | ⟨px, py, hf | hg, h⟩)
      · exact .inl (.inl h)
      · exact .inl (.inr ⟨px, py, hf, h⟩)
      · exact .inr ⟨px, py, hg, by rwa [h₁.missed px py (fun hf => hfg px py hf hg)]⟩

theorem Draws.congr {f g : Fin 64 → Fin 32 → Prop} {d e : Drawing} (h : Draws f d e)
    (hfg : ∀ px py, f px py ↔ g px py) : Draws g d e := by
  obtain rfl : f = g := funext fun px => funext fun py => propext (hfg px py)
  exact h

/-! ## The engine -/

/-- One sprite bit is its one cell drawn, if it is set. -/
theorem drawBit_draws (cx cy row : Nat) (b : Byte) (col : Nat) (d : Drawing) :
    Draws (fun px py => b.getLsbD (7 - col) = true ∧ px = columnOf (cx + col) ∧ py = rowOf (cy + row))
      d (drawBit cx cy row b col d) := by
  unfold drawBit
  split
  case isTrue hb =>
    refine ⟨?_, ?_, ?_⟩
    · rintro px py ⟨-, h⟩
      simp only [pixel_flip]; rw [if_pos h]
    · intro px py h
      simp only [pixel_flip]; rw [if_neg (fun h' => h ⟨hb, h'⟩)]
    · simp [hb]
  case isFalse hb =>
    exact (Draws.refl d).congr (by simp [hb])

/-- The first k bits of a sprite row. -/
theorem drawBits_draws (cx cy row : Nat) (b : Byte) (d : Drawing) : ∀ k, k ≤ 8 →
    Draws (fun px py => ∃ c, c < k ∧ b.getLsbD (7 - c) = true ∧ px = columnOf (cx + c) ∧ py = rowOf (cy + row))
      d ((List.range k).foldl (fun d col => drawBit cx cy row b col d) d)
  | 0, _ => (Draws.refl d).congr (by simp)
  | k + 1, hk => by
    rw [List.range_succ, List.foldl_append]
    refine ((drawBits_draws cx cy row b d k (by omega)).comp (drawBit_draws cx cy row b k _) ?_).congr ?_
    · rintro px py ⟨c, hc, -, h₁, -⟩ ⟨-, h₂, -⟩
      have := h₁.symm.trans h₂
      simp only [columnOf, Fin.mk.injEq] at this
      omega
    · intro px py
      constructor
      · rintro (⟨c, hc, h⟩ | h)
        · exact ⟨c, by omega, h⟩
        · exact ⟨k, by omega, h⟩
      · rintro ⟨c, hc, h⟩
        obtain hc | rfl := Nat.lt_succ_iff_lt_or_eq.1 hc
        · exact .inl ⟨c, hc, h⟩
        · exact .inr h

theorem drawRow_draws (cx cy row : Nat) (b : Byte) (d : Drawing) :
    Draws (fun px py => ∃ c, c < 8 ∧ b.getLsbD (7 - c) = true ∧ px = columnOf (cx + c) ∧ py = rowOf (cy + row))
      d (drawRow cx cy row b d) := drawBits_draws cx cy row b d 8 (Nat.le_refl 8)

/-- The rows of a sprite, from the given row on, at most 32 of them in all. -/
theorem drawRows_draws (cx cy : Nat) (bs : List Byte) : ∀ (row : Nat) (d : Drawing), row + bs.length ≤ 32 →
    Draws (fun px py => ∃ r c, r < bs.length ∧ c < 8 ∧ (bs.getD r 0).getLsbD (7 - c) = true ∧
      px = columnOf (cx + c) ∧ py = rowOf (cy + (row + r))) d (drawRows cx cy row bs d) := by
  induction bs with
  | nil => intro row d _; exact (Draws.refl d).congr (by simp)
  | cons b bs ih =>
    intro row d hrow
    simp only [List.length_cons] at hrow
    refine ((drawRow_draws cx cy row b d).comp (ih (row + 1) _ (by omega)) ?_).congr ?_
    · rintro px py ⟨c, -, -, -, h₁⟩ ⟨r, c', hr, -, -, -, h₂⟩
      have := h₁.symm.trans h₂
      simp only [rowOf, Fin.mk.injEq] at this
      omega
    · intro px py
      constructor
      · rintro (⟨c, hc, h⟩ | ⟨r, c, hr, hc, hb, hx, hy⟩)
        · exact ⟨0, c, by simp, hc, by simpa using h⟩
        · refine ⟨r + 1, c, by simp [hr], hc, by simpa using hb, hx, ?_⟩
          rw [hy]; congr 1; omega
      · rintro ⟨r, c, hr, hc, hb, hx, hy⟩
        match r with
        | 0 => exact .inl ⟨c, hc, by simpa using hb, hx, by simpa using hy⟩
        | r + 1 =>
          refine .inr ⟨r, c, by simpa using hr, hc, by simpa using hb, hx, ?_⟩
          rw [hy]; congr 1; omega

/-- The whole sprite: the pixels that `SpriteHits` names are inverted, and a collision is one of them on before. -/
theorem drawSprite_draws (cx cy : Nat) (bs : List Byte) (fb : Framebuffer) (h : bs.length ≤ 32) :
    Draws (SpriteHits cx cy bs.length (fun r => bs.getD r 0)) (fb, false) (drawSprite cx cy bs fb) := by
  refine (drawRows_draws cx cy bs 0 (fb, false) (by omega)).congr ?_
  intro px py
  simp only [SpriteHits, columnOf, rowOf, Fin.ext_iff, Nat.zero_add]

end Sys2Proof.Machine
end

