-- ==== Sys2Proof/Laws/State.lean ====
section
/-! SUPPORT. What each update of the state does to each field and to each accessor, true by unfolding; the simp set
that keeps later proofs from unfolding a record update. -/

namespace Sys2Proof.Machine

variable (s : State)

/-! ## setReg -/

@[simp] theorem setReg_v (r : Reg) (b : Byte) : (s.setReg r b).v = s.v.set r b := rfl
@[simp] theorem setReg_index (r : Reg) (b : Byte) : (s.setReg r b).index = s.index := rfl
@[simp] theorem setReg_pc (r : Reg) (b : Byte) : (s.setReg r b).pc = s.pc := rfl
@[simp] theorem setReg_stack (r : Reg) (b : Byte) : (s.setReg r b).stack = s.stack := rfl
@[simp] theorem setReg_dt (r : Reg) (b : Byte) : (s.setReg r b).dt = s.dt := rfl
@[simp] theorem setReg_st (r : Reg) (b : Byte) : (s.setReg r b).st = s.st := rfl
@[simp] theorem setReg_mem (r : Reg) (b : Byte) : (s.setReg r b).mem = s.mem := rfl
@[simp] theorem setReg_fb (r : Reg) (b : Byte) : (s.setReg r b).fb = s.fb := rfl
@[simp] theorem setReg_dirty (r : Reg) (b : Byte) : (s.setReg r b).dirty = s.dirty := rfl
@[simp] theorem setReg_key (r : Reg) (b : Byte) : (s.setReg r b).key = s.key := rfl
@[simp] theorem setReg_fault (r : Reg) (b : Byte) : (s.setReg r b).fault = s.fault := rfl
@[simp] theorem setReg_draws (r : Reg) (b : Byte) : (s.setReg r b).draws = s.draws := rfl
@[simp] theorem setReg_cfg (r : Reg) (b : Byte) : (s.setReg r b).cfg = s.cfg := rfl
@[simp] theorem setReg_readByte (r : Reg) (b : Byte) (a : Nat) : (s.setReg r b).readByte a = s.readByte a := rfl
@[simp] theorem setReg_pixel (r : Reg) (b : Byte) (px : Fin 64) (py : Fin 32) : (s.setReg r b).pixel px py = s.pixel px py := rfl
@[simp] theorem setReg_sp (r : Reg) (b : Byte) : (s.setReg r b).sp = s.sp := rfl
@[simp] theorem setReg_dataAddr (r : Reg) (b : Byte) : (s.setReg r b).dataAddr = s.dataAddr := rfl
@[simp] theorem setReg_firstKey (r : Reg) (b : Byte) : (s.setReg r b).firstKey = s.firstKey := rfl

/-! ## setFlag -/

@[simp] theorem setFlag_v (b : Byte) : (s.setFlag b).v = s.v.set VF b := rfl
@[simp] theorem setFlag_index (b : Byte) : (s.setFlag b).index = s.index := rfl
@[simp] theorem setFlag_pc (b : Byte) : (s.setFlag b).pc = s.pc := rfl
@[simp] theorem setFlag_stack (b : Byte) : (s.setFlag b).stack = s.stack := rfl
@[simp] theorem setFlag_dt (b : Byte) : (s.setFlag b).dt = s.dt := rfl
@[simp] theorem setFlag_st (b : Byte) : (s.setFlag b).st = s.st := rfl
@[simp] theorem setFlag_mem (b : Byte) : (s.setFlag b).mem = s.mem := rfl
@[simp] theorem setFlag_fb (b : Byte) : (s.setFlag b).fb = s.fb := rfl
@[simp] theorem setFlag_dirty (b : Byte) : (s.setFlag b).dirty = s.dirty := rfl
@[simp] theorem setFlag_key (b : Byte) : (s.setFlag b).key = s.key := rfl
@[simp] theorem setFlag_fault (b : Byte) : (s.setFlag b).fault = s.fault := rfl
@[simp] theorem setFlag_draws (b : Byte) : (s.setFlag b).draws = s.draws := rfl
@[simp] theorem setFlag_cfg (b : Byte) : (s.setFlag b).cfg = s.cfg := rfl
@[simp] theorem setFlag_readByte (b : Byte) (a : Nat) : (s.setFlag b).readByte a = s.readByte a := rfl
@[simp] theorem setFlag_pixel (b : Byte) (px : Fin 64) (py : Fin 32) : (s.setFlag b).pixel px py = s.pixel px py := rfl
@[simp] theorem setFlag_sp (b : Byte) : (s.setFlag b).sp = s.sp := rfl
@[simp] theorem setFlag_dataAddr (b : Byte) : (s.setFlag b).dataAddr = s.dataAddr := rfl
@[simp] theorem setFlag_firstKey (b : Byte) : (s.setFlag b).firstKey = s.firstKey := rfl

/-! ## setRegs -/

@[simp] theorem setRegs_v (bs : List Byte) : (s.setRegs bs).v = Vector.ofFn (fun i : Reg => bs.getD i (s.reg i)) := rfl
@[simp] theorem setRegs_index (bs : List Byte) : (s.setRegs bs).index = s.index := rfl
@[simp] theorem setRegs_pc (bs : List Byte) : (s.setRegs bs).pc = s.pc := rfl
@[simp] theorem setRegs_stack (bs : List Byte) : (s.setRegs bs).stack = s.stack := rfl
@[simp] theorem setRegs_dt (bs : List Byte) : (s.setRegs bs).dt = s.dt := rfl
@[simp] theorem setRegs_st (bs : List Byte) : (s.setRegs bs).st = s.st := rfl
@[simp] theorem setRegs_mem (bs : List Byte) : (s.setRegs bs).mem = s.mem := rfl
@[simp] theorem setRegs_fb (bs : List Byte) : (s.setRegs bs).fb = s.fb := rfl
@[simp] theorem setRegs_dirty (bs : List Byte) : (s.setRegs bs).dirty = s.dirty := rfl
@[simp] theorem setRegs_key (bs : List Byte) : (s.setRegs bs).key = s.key := rfl
@[simp] theorem setRegs_fault (bs : List Byte) : (s.setRegs bs).fault = s.fault := rfl
@[simp] theorem setRegs_draws (bs : List Byte) : (s.setRegs bs).draws = s.draws := rfl
@[simp] theorem setRegs_cfg (bs : List Byte) : (s.setRegs bs).cfg = s.cfg := rfl
@[simp] theorem setRegs_readByte (bs : List Byte) (a : Nat) : (s.setRegs bs).readByte a = s.readByte a := rfl
@[simp] theorem setRegs_pixel (bs : List Byte) (px : Fin 64) (py : Fin 32) : (s.setRegs bs).pixel px py = s.pixel px py := rfl
@[simp] theorem setRegs_sp (bs : List Byte) : (s.setRegs bs).sp = s.sp := rfl
@[simp] theorem setRegs_dataAddr (bs : List Byte) : (s.setRegs bs).dataAddr = s.dataAddr := rfl
@[simp] theorem setRegs_firstKey (bs : List Byte) : (s.setRegs bs).firstKey = s.firstKey := rfl

/-! ## setIndex -/

@[simp] theorem setIndex_v (w : Word) : (s.setIndex w).v = s.v := rfl
@[simp] theorem setIndex_index (w : Word) : (s.setIndex w).index = w := rfl
@[simp] theorem setIndex_pc (w : Word) : (s.setIndex w).pc = s.pc := rfl
@[simp] theorem setIndex_stack (w : Word) : (s.setIndex w).stack = s.stack := rfl
@[simp] theorem setIndex_dt (w : Word) : (s.setIndex w).dt = s.dt := rfl
@[simp] theorem setIndex_st (w : Word) : (s.setIndex w).st = s.st := rfl
@[simp] theorem setIndex_mem (w : Word) : (s.setIndex w).mem = s.mem := rfl
@[simp] theorem setIndex_fb (w : Word) : (s.setIndex w).fb = s.fb := rfl
@[simp] theorem setIndex_dirty (w : Word) : (s.setIndex w).dirty = s.dirty := rfl
@[simp] theorem setIndex_key (w : Word) : (s.setIndex w).key = s.key := rfl
@[simp] theorem setIndex_fault (w : Word) : (s.setIndex w).fault = s.fault := rfl
@[simp] theorem setIndex_draws (w : Word) : (s.setIndex w).draws = s.draws := rfl
@[simp] theorem setIndex_cfg (w : Word) : (s.setIndex w).cfg = s.cfg := rfl
@[simp] theorem setIndex_reg (w : Word) (r' : Reg) : (s.setIndex w).reg r' = s.reg r' := rfl
@[simp] theorem setIndex_readByte (w : Word) (a : Nat) : (s.setIndex w).readByte a = s.readByte a := rfl
@[simp] theorem setIndex_pixel (w : Word) (px : Fin 64) (py : Fin 32) : (s.setIndex w).pixel px py = s.pixel px py := rfl
@[simp] theorem setIndex_sp (w : Word) : (s.setIndex w).sp = s.sp := rfl
@[simp] theorem setIndex_firstKey (w : Word) : (s.setIndex w).firstKey = s.firstKey := rfl

/-! ## setPc -/

@[simp] theorem setPc_v (w : Word) : (s.setPc w).v = s.v := rfl
@[simp] theorem setPc_index (w : Word) : (s.setPc w).index = s.index := rfl
@[simp] theorem setPc_pc (w : Word) : (s.setPc w).pc = w := rfl
@[simp] theorem setPc_stack (w : Word) : (s.setPc w).stack = s.stack := rfl
@[simp] theorem setPc_dt (w : Word) : (s.setPc w).dt = s.dt := rfl
@[simp] theorem setPc_st (w : Word) : (s.setPc w).st = s.st := rfl
@[simp] theorem setPc_mem (w : Word) : (s.setPc w).mem = s.mem := rfl
@[simp] theorem setPc_fb (w : Word) : (s.setPc w).fb = s.fb := rfl
@[simp] theorem setPc_dirty (w : Word) : (s.setPc w).dirty = s.dirty := rfl
@[simp] theorem setPc_key (w : Word) : (s.setPc w).key = s.key := rfl
@[simp] theorem setPc_fault (w : Word) : (s.setPc w).fault = s.fault := rfl
@[simp] theorem setPc_draws (w : Word) : (s.setPc w).draws = s.draws := rfl
@[simp] theorem setPc_cfg (w : Word) : (s.setPc w).cfg = s.cfg := rfl
@[simp] theorem setPc_reg (w : Word) (r' : Reg) : (s.setPc w).reg r' = s.reg r' := rfl
@[simp] theorem setPc_readByte (w : Word) (a : Nat) : (s.setPc w).readByte a = s.readByte a := rfl
@[simp] theorem setPc_pixel (w : Word) (px : Fin 64) (py : Fin 32) : (s.setPc w).pixel px py = s.pixel px py := rfl
@[simp] theorem setPc_sp (w : Word) : (s.setPc w).sp = s.sp := rfl
@[simp] theorem setPc_dataAddr (w : Word) : (s.setPc w).dataAddr = s.dataAddr := rfl
@[simp] theorem setPc_firstKey (w : Word) : (s.setPc w).firstKey = s.firstKey := rfl

/-! ## advancePc -/

@[simp] theorem advancePc_v : (s.advancePc).v = s.v := rfl
@[simp] theorem advancePc_index : (s.advancePc).index = s.index := rfl
@[simp] theorem advancePc_pc : (s.advancePc).pc = s.pc + 2 := rfl
@[simp] theorem advancePc_stack : (s.advancePc).stack = s.stack := rfl
@[simp] theorem advancePc_dt : (s.advancePc).dt = s.dt := rfl
@[simp] theorem advancePc_st : (s.advancePc).st = s.st := rfl
@[simp] theorem advancePc_mem : (s.advancePc).mem = s.mem := rfl
@[simp] theorem advancePc_fb : (s.advancePc).fb = s.fb := rfl
@[simp] theorem advancePc_dirty : (s.advancePc).dirty = s.dirty := rfl
@[simp] theorem advancePc_key : (s.advancePc).key = s.key := rfl
@[simp] theorem advancePc_fault : (s.advancePc).fault = s.fault := rfl
@[simp] theorem advancePc_draws : (s.advancePc).draws = s.draws := rfl
@[simp] theorem advancePc_cfg : (s.advancePc).cfg = s.cfg := rfl
@[simp] theorem advancePc_reg (r' : Reg) : (s.advancePc).reg r' = s.reg r' := rfl
@[simp] theorem advancePc_readByte (a : Nat) : (s.advancePc).readByte a = s.readByte a := rfl
@[simp] theorem advancePc_pixel (px : Fin 64) (py : Fin 32) : (s.advancePc).pixel px py = s.pixel px py := rfl
@[simp] theorem advancePc_sp : (s.advancePc).sp = s.sp := rfl
@[simp] theorem advancePc_dataAddr : (s.advancePc).dataAddr = s.dataAddr := rfl
@[simp] theorem advancePc_firstKey : (s.advancePc).firstKey = s.firstKey := rfl

/-! ## rewindPc -/

@[simp] theorem rewindPc_v : (s.rewindPc).v = s.v := rfl
@[simp] theorem rewindPc_index : (s.rewindPc).index = s.index := rfl
@[simp] theorem rewindPc_pc : (s.rewindPc).pc = s.pc - 2 := rfl
@[simp] theorem rewindPc_stack : (s.rewindPc).stack = s.stack := rfl
@[simp] theorem rewindPc_dt : (s.rewindPc).dt = s.dt := rfl
@[simp] theorem rewindPc_st : (s.rewindPc).st = s.st := rfl
@[simp] theorem rewindPc_mem : (s.rewindPc).mem = s.mem := rfl
@[simp] theorem rewindPc_fb : (s.rewindPc).fb = s.fb := rfl
@[simp] theorem rewindPc_dirty : (s.rewindPc).dirty = s.dirty := rfl
@[simp] theorem rewindPc_key : (s.rewindPc).key = s.key := rfl
@[simp] theorem rewindPc_fault : (s.rewindPc).fault = s.fault := rfl
@[simp] theorem rewindPc_draws : (s.rewindPc).draws = s.draws := rfl
@[simp] theorem rewindPc_cfg : (s.rewindPc).cfg = s.cfg := rfl
@[simp] theorem rewindPc_reg (r' : Reg) : (s.rewindPc).reg r' = s.reg r' := rfl
@[simp] theorem rewindPc_readByte (a : Nat) : (s.rewindPc).readByte a = s.readByte a := rfl
@[simp] theorem rewindPc_pixel (px : Fin 64) (py : Fin 32) : (s.rewindPc).pixel px py = s.pixel px py := rfl
@[simp] theorem rewindPc_sp : (s.rewindPc).sp = s.sp := rfl
@[simp] theorem rewindPc_dataAddr : (s.rewindPc).dataAddr = s.dataAddr := rfl
@[simp] theorem rewindPc_firstKey : (s.rewindPc).firstKey = s.firstKey := rfl

/-! ## push -/

@[simp] theorem push_v (w : Word) : (s.push w).v = s.v := rfl
@[simp] theorem push_index (w : Word) : (s.push w).index = s.index := rfl
@[simp] theorem push_pc (w : Word) : (s.push w).pc = s.pc := rfl
@[simp] theorem push_stack (w : Word) : (s.push w).stack = s.stack ++ [w] := rfl
@[simp] theorem push_dt (w : Word) : (s.push w).dt = s.dt := rfl
@[simp] theorem push_st (w : Word) : (s.push w).st = s.st := rfl
@[simp] theorem push_mem (w : Word) : (s.push w).mem = s.mem := rfl
@[simp] theorem push_fb (w : Word) : (s.push w).fb = s.fb := rfl
@[simp] theorem push_dirty (w : Word) : (s.push w).dirty = s.dirty := rfl
@[simp] theorem push_key (w : Word) : (s.push w).key = s.key := rfl
@[simp] theorem push_fault (w : Word) : (s.push w).fault = s.fault := rfl
@[simp] theorem push_draws (w : Word) : (s.push w).draws = s.draws := rfl
@[simp] theorem push_cfg (w : Word) : (s.push w).cfg = s.cfg := rfl
@[simp] theorem push_reg (w : Word) (r' : Reg) : (s.push w).reg r' = s.reg r' := rfl
@[simp] theorem push_readByte (w : Word) (a : Nat) : (s.push w).readByte a = s.readByte a := rfl
@[simp] theorem push_pixel (w : Word) (px : Fin 64) (py : Fin 32) : (s.push w).pixel px py = s.pixel px py := rfl
@[simp] theorem push_dataAddr (w : Word) : (s.push w).dataAddr = s.dataAddr := rfl
@[simp] theorem push_firstKey (w : Word) : (s.push w).firstKey = s.firstKey := rfl

/-! ## setDt -/

@[simp] theorem setDt_v (b : Byte) : (s.setDt b).v = s.v := rfl
@[simp] theorem setDt_index (b : Byte) : (s.setDt b).index = s.index := rfl
@[simp] theorem setDt_pc (b : Byte) : (s.setDt b).pc = s.pc := rfl
@[simp] theorem setDt_stack (b : Byte) : (s.setDt b).stack = s.stack := rfl
@[simp] theorem setDt_dt (b : Byte) : (s.setDt b).dt = b := rfl
@[simp] theorem setDt_st (b : Byte) : (s.setDt b).st = s.st := rfl
@[simp] theorem setDt_mem (b : Byte) : (s.setDt b).mem = s.mem := rfl
@[simp] theorem setDt_fb (b : Byte) : (s.setDt b).fb = s.fb := rfl
@[simp] theorem setDt_dirty (b : Byte) : (s.setDt b).dirty = s.dirty := rfl
@[simp] theorem setDt_key (b : Byte) : (s.setDt b).key = s.key := rfl
@[simp] theorem setDt_fault (b : Byte) : (s.setDt b).fault = s.fault := rfl
@[simp] theorem setDt_draws (b : Byte) : (s.setDt b).draws = s.draws := rfl
@[simp] theorem setDt_cfg (b : Byte) : (s.setDt b).cfg = s.cfg := rfl
@[simp] theorem setDt_reg (b : Byte) (r' : Reg) : (s.setDt b).reg r' = s.reg r' := rfl
@[simp] theorem setDt_readByte (b : Byte) (a : Nat) : (s.setDt b).readByte a = s.readByte a := rfl
@[simp] theorem setDt_pixel (b : Byte) (px : Fin 64) (py : Fin 32) : (s.setDt b).pixel px py = s.pixel px py := rfl
@[simp] theorem setDt_sp (b : Byte) : (s.setDt b).sp = s.sp := rfl
@[simp] theorem setDt_dataAddr (b : Byte) : (s.setDt b).dataAddr = s.dataAddr := rfl
@[simp] theorem setDt_firstKey (b : Byte) : (s.setDt b).firstKey = s.firstKey := rfl

/-! ## setSt -/

@[simp] theorem setSt_v (b : Byte) : (s.setSt b).v = s.v := rfl
@[simp] theorem setSt_index (b : Byte) : (s.setSt b).index = s.index := rfl
@[simp] theorem setSt_pc (b : Byte) : (s.setSt b).pc = s.pc := rfl
@[simp] theorem setSt_stack (b : Byte) : (s.setSt b).stack = s.stack := rfl
@[simp] theorem setSt_dt (b : Byte) : (s.setSt b).dt = s.dt := rfl
@[simp] theorem setSt_st (b : Byte) : (s.setSt b).st = b := rfl
@[simp] theorem setSt_mem (b : Byte) : (s.setSt b).mem = s.mem := rfl
@[simp] theorem setSt_fb (b : Byte) : (s.setSt b).fb = s.fb := rfl
@[simp] theorem setSt_dirty (b : Byte) : (s.setSt b).dirty = s.dirty := rfl
@[simp] theorem setSt_key (b : Byte) : (s.setSt b).key = s.key := rfl
@[simp] theorem setSt_fault (b : Byte) : (s.setSt b).fault = s.fault := rfl
@[simp] theorem setSt_draws (b : Byte) : (s.setSt b).draws = s.draws := rfl
@[simp] theorem setSt_cfg (b : Byte) : (s.setSt b).cfg = s.cfg := rfl
@[simp] theorem setSt_reg (b : Byte) (r' : Reg) : (s.setSt b).reg r' = s.reg r' := rfl
@[simp] theorem setSt_readByte (b : Byte) (a : Nat) : (s.setSt b).readByte a = s.readByte a := rfl
@[simp] theorem setSt_pixel (b : Byte) (px : Fin 64) (py : Fin 32) : (s.setSt b).pixel px py = s.pixel px py := rfl
@[simp] theorem setSt_sp (b : Byte) : (s.setSt b).sp = s.sp := rfl
@[simp] theorem setSt_dataAddr (b : Byte) : (s.setSt b).dataAddr = s.dataAddr := rfl
@[simp] theorem setSt_firstKey (b : Byte) : (s.setSt b).firstKey = s.firstKey := rfl

/-! ## countDraw -/

@[simp] theorem countDraw_v : (s.countDraw).v = s.v := rfl
@[simp] theorem countDraw_index : (s.countDraw).index = s.index := rfl
@[simp] theorem countDraw_pc : (s.countDraw).pc = s.pc := rfl
@[simp] theorem countDraw_stack : (s.countDraw).stack = s.stack := rfl
@[simp] theorem countDraw_dt : (s.countDraw).dt = s.dt := rfl
@[simp] theorem countDraw_st : (s.countDraw).st = s.st := rfl
@[simp] theorem countDraw_mem : (s.countDraw).mem = s.mem := rfl
@[simp] theorem countDraw_fb : (s.countDraw).fb = s.fb := rfl
@[simp] theorem countDraw_dirty : (s.countDraw).dirty = s.dirty := rfl
@[simp] theorem countDraw_key : (s.countDraw).key = s.key := rfl
@[simp] theorem countDraw_fault : (s.countDraw).fault = s.fault := rfl
@[simp] theorem countDraw_draws : (s.countDraw).draws = s.draws + 1 := rfl
@[simp] theorem countDraw_cfg : (s.countDraw).cfg = s.cfg := rfl
@[simp] theorem countDraw_reg (r' : Reg) : (s.countDraw).reg r' = s.reg r' := rfl
@[simp] theorem countDraw_readByte (a : Nat) : (s.countDraw).readByte a = s.readByte a := rfl
@[simp] theorem countDraw_pixel (px : Fin 64) (py : Fin 32) : (s.countDraw).pixel px py = s.pixel px py := rfl
@[simp] theorem countDraw_sp : (s.countDraw).sp = s.sp := rfl
@[simp] theorem countDraw_dataAddr : (s.countDraw).dataAddr = s.dataAddr := rfl
@[simp] theorem countDraw_firstKey : (s.countDraw).firstKey = s.firstKey := rfl

/-! ## drawScreen -/

@[simp] theorem drawScreen_v (fb : Framebuffer) : (s.drawScreen fb).v = s.v := rfl
@[simp] theorem drawScreen_index (fb : Framebuffer) : (s.drawScreen fb).index = s.index := rfl
@[simp] theorem drawScreen_pc (fb : Framebuffer) : (s.drawScreen fb).pc = s.pc := rfl
@[simp] theorem drawScreen_stack (fb : Framebuffer) : (s.drawScreen fb).stack = s.stack := rfl
@[simp] theorem drawScreen_dt (fb : Framebuffer) : (s.drawScreen fb).dt = s.dt := rfl
@[simp] theorem drawScreen_st (fb : Framebuffer) : (s.drawScreen fb).st = s.st := rfl
@[simp] theorem drawScreen_mem (fb : Framebuffer) : (s.drawScreen fb).mem = s.mem := rfl
@[simp] theorem drawScreen_fb (fb : Framebuffer) : (s.drawScreen fb).fb = fb := rfl
@[simp] theorem drawScreen_dirty (fb : Framebuffer) : (s.drawScreen fb).dirty = true := rfl
@[simp] theorem drawScreen_key (fb : Framebuffer) : (s.drawScreen fb).key = s.key := rfl
@[simp] theorem drawScreen_fault (fb : Framebuffer) : (s.drawScreen fb).fault = s.fault := rfl
@[simp] theorem drawScreen_draws (fb : Framebuffer) : (s.drawScreen fb).draws = s.draws := rfl
@[simp] theorem drawScreen_cfg (fb : Framebuffer) : (s.drawScreen fb).cfg = s.cfg := rfl
@[simp] theorem drawScreen_reg (fb : Framebuffer) (r' : Reg) : (s.drawScreen fb).reg r' = s.reg r' := rfl
@[simp] theorem drawScreen_readByte (fb : Framebuffer) (a : Nat) : (s.drawScreen fb).readByte a = s.readByte a := rfl
@[simp] theorem drawScreen_sp (fb : Framebuffer) : (s.drawScreen fb).sp = s.sp := rfl
@[simp] theorem drawScreen_dataAddr (fb : Framebuffer) : (s.drawScreen fb).dataAddr = s.dataAddr := rfl
@[simp] theorem drawScreen_firstKey (fb : Framebuffer) : (s.drawScreen fb).firstKey = s.firstKey := rfl

/-! ## takeFault -/

@[simp] theorem takeFault_v (rec : FaultRecord) : (s.takeFault rec).v = s.v := rfl
@[simp] theorem takeFault_index (rec : FaultRecord) : (s.takeFault rec).index = s.index := rfl
@[simp] theorem takeFault_pc (rec : FaultRecord) : (s.takeFault rec).pc = s.pc := rfl
@[simp] theorem takeFault_stack (rec : FaultRecord) : (s.takeFault rec).stack = s.stack := rfl
@[simp] theorem takeFault_dt (rec : FaultRecord) : (s.takeFault rec).dt = s.dt := rfl
@[simp] theorem takeFault_st (rec : FaultRecord) : (s.takeFault rec).st = s.st := rfl
@[simp] theorem takeFault_mem (rec : FaultRecord) : (s.takeFault rec).mem = s.mem := rfl
@[simp] theorem takeFault_fb (rec : FaultRecord) : (s.takeFault rec).fb = s.fb := rfl
@[simp] theorem takeFault_dirty (rec : FaultRecord) : (s.takeFault rec).dirty = s.dirty := rfl
@[simp] theorem takeFault_key (rec : FaultRecord) : (s.takeFault rec).key = s.key := rfl
@[simp] theorem takeFault_fault (rec : FaultRecord) : (s.takeFault rec).fault = some rec := rfl
@[simp] theorem takeFault_draws (rec : FaultRecord) : (s.takeFault rec).draws = s.draws := rfl
@[simp] theorem takeFault_cfg (rec : FaultRecord) : (s.takeFault rec).cfg = s.cfg := rfl
@[simp] theorem takeFault_reg (rec : FaultRecord) (r' : Reg) : (s.takeFault rec).reg r' = s.reg r' := rfl
@[simp] theorem takeFault_readByte (rec : FaultRecord) (a : Nat) : (s.takeFault rec).readByte a = s.readByte a := rfl
@[simp] theorem takeFault_pixel (rec : FaultRecord) (px : Fin 64) (py : Fin 32) : (s.takeFault rec).pixel px py = s.pixel px py := rfl
@[simp] theorem takeFault_sp (rec : FaultRecord) : (s.takeFault rec).sp = s.sp := rfl
@[simp] theorem takeFault_dataAddr (rec : FaultRecord) : (s.takeFault rec).dataAddr = s.dataAddr := rfl
@[simp] theorem takeFault_firstKey (rec : FaultRecord) : (s.takeFault rec).firstKey = s.firstKey := rfl

/-! ## skipIf -/

@[simp] theorem skipIf_v (c : Bool) : (s.skipIf c).v = s.v := by cases c <;> rfl
@[simp] theorem skipIf_index (c : Bool) : (s.skipIf c).index = s.index := by cases c <;> rfl
theorem skipIf_pc (c : Bool) : (s.skipIf c).pc = if c then s.pc + 2 else s.pc := by cases c <;> rfl
@[simp] theorem skipIf_stack (c : Bool) : (s.skipIf c).stack = s.stack := by cases c <;> rfl
@[simp] theorem skipIf_dt (c : Bool) : (s.skipIf c).dt = s.dt := by cases c <;> rfl
@[simp] theorem skipIf_st (c : Bool) : (s.skipIf c).st = s.st := by cases c <;> rfl
@[simp] theorem skipIf_mem (c : Bool) : (s.skipIf c).mem = s.mem := by cases c <;> rfl
@[simp] theorem skipIf_fb (c : Bool) : (s.skipIf c).fb = s.fb := by cases c <;> rfl
@[simp] theorem skipIf_dirty (c : Bool) : (s.skipIf c).dirty = s.dirty := by cases c <;> rfl
@[simp] theorem skipIf_key (c : Bool) : (s.skipIf c).key = s.key := by cases c <;> rfl
@[simp] theorem skipIf_fault (c : Bool) : (s.skipIf c).fault = s.fault := by cases c <;> rfl
@[simp] theorem skipIf_draws (c : Bool) : (s.skipIf c).draws = s.draws := by cases c <;> rfl
@[simp] theorem skipIf_cfg (c : Bool) : (s.skipIf c).cfg = s.cfg := by cases c <;> rfl
@[simp] theorem skipIf_reg (c : Bool) (r' : Reg) : (s.skipIf c).reg r' = s.reg r' := by cases c <;> rfl
@[simp] theorem skipIf_readByte (c : Bool) (a : Nat) : (s.skipIf c).readByte a = s.readByte a := by cases c <;> rfl
@[simp] theorem skipIf_pixel (c : Bool) (px : Fin 64) (py : Fin 32) : (s.skipIf c).pixel px py = s.pixel px py := by cases c <;> rfl
@[simp] theorem skipIf_sp (c : Bool) : (s.skipIf c).sp = s.sp := by cases c <;> rfl
@[simp] theorem skipIf_dataAddr (c : Bool) : (s.skipIf c).dataAddr = s.dataAddr := by cases c <;> rfl
@[simp] theorem skipIf_firstKey (c : Bool) : (s.skipIf c).firstKey = s.firstKey := by cases c <;> rfl

/-! ## Accessors of the updated part -/

theorem setReg_reg (r q : Reg) (b : Byte) : (s.setReg r b).reg q = if q = r then b else s.reg q := by
  simp only [State.reg, State.setReg, Fin.getElem_fin, Vector.getElem_set, Fin.ext_iff, eq_comm]

@[simp] theorem setReg_reg_same (r : Reg) (b : Byte) : (s.setReg r b).reg r = b := by
  simp [setReg_reg]

theorem setReg_reg_other {r q : Reg} (b : Byte) (h : q ≠ r) : (s.setReg r b).reg q = s.reg q := by
  simp [setReg_reg, h]

theorem setFlag_reg (q : Reg) (b : Byte) : (s.setFlag b).reg q = if q = VF then b else s.reg q :=
  setReg_reg s VF q b

theorem setRegs_reg (bs : List Byte) (q : Reg) : (s.setRegs bs).reg q = bs.getD q (s.reg q) := by
  simp [State.reg, State.setRegs]

@[simp] theorem push_sp (w : Word) : (s.push w).sp = s.sp + 1 := by
  simp [State.sp]

@[simp] theorem setIndex_dataAddr (w : Word) : (s.setIndex w).dataAddr = w.toNat := rfl

@[simp] theorem drawScreen_pixel (fb : Framebuffer) (px : Fin 64) (py : Fin 32) :
    (s.drawScreen fb).pixel px py = Framebuffer.pixel fb px py := rfl

end Sys2Proof.Machine
end

