-- ==== Sys2Proof/Laws/Frame.lean ====
section
/-! SUPPORT. How frames are built: a state is unchanged but for nothing, a frame may be widened, and each update of
the state has its frame. -/

namespace Sys2Proof.Machine

theorem UnchangedBut.refl (s : State) (regs : List Reg) (parts : List Part) (stored : List Nat) :
    UnchangedBut s s regs parts stored := by
  constructor <;> intros <;> rfl

theorem UnchangedBut.setReg (s : State) (r : Reg) (b : Byte) : UnchangedBut s (s.setReg r b) [r] [] [] := by
  refine ⟨fun q hq => setReg_reg_other s b (by simpa using hq), ?_, ?_, ?_, ?_, ?_, ?_, ?_, ?_, ?_, ?_, ?_, rfl⟩ <;>
    intros <;> rfl

theorem UnchangedBut.flagThenReg (s : State) (x : Reg) (f b : Byte) :
    UnchangedBut s ((s.setFlag f).setReg x b) [x, VF] [] [] := by
  refine ⟨fun q hq => ?_, ?_, ?_, ?_, ?_, ?_, ?_, ?_, ?_, ?_, ?_, ?_, rfl⟩
  · simp only [List.mem_cons, List.not_mem_nil, or_false, not_or] at hq
    rw [setReg_reg_other _ _ hq.1, setFlag_reg, if_neg hq.2]
  all_goals intros; rfl

theorem UnchangedBut.setPc (s : State) (w : Word) : UnchangedBut s (s.setPc w) [] [.pc] [] := by
  constructor <;> intros <;> first | rfl | simp_all

theorem UnchangedBut.skipIf (s : State) (c : Bool) : UnchangedBut s (s.skipIf c) [] [.pc] [] := by
  cases c
  · exact UnchangedBut.refl s _ _ _
  · exact UnchangedBut.setPc s _

theorem UnchangedBut.setIndex (s : State) (w : Word) : UnchangedBut s (s.setIndex w) [] [.index] [] := by
  constructor <;> intros <;> first | rfl | simp_all

theorem UnchangedBut.setDt (s : State) (b : Byte) : UnchangedBut s (s.setDt b) [] [.dt] [] := by
  constructor <;> intros <;> first | rfl | simp_all

theorem UnchangedBut.setSt (s : State) (b : Byte) : UnchangedBut s (s.setSt b) [] [.st] [] := by
  constructor <;> intros <;> first | rfl | simp_all

theorem UnchangedBut.takeFault (s : State) (r : FaultRecord) : UnchangedBut s (s.takeFault r) [] [.fault] [] := by
  constructor <;> intros <;> first | rfl | simp_all

theorem UnchangedBut.drawScreen (s : State) (fb : Framebuffer) :
    UnchangedBut s (s.drawScreen fb) [] [.fb, .dirty] [] := by
  constructor <;> intros <;> first | rfl | simp_all

/-- Frames compose: what neither change touches is unchanged. -/
theorem UnchangedBut.trans {s t u : State} {r₁ r₂ : List Reg} {p₁ p₂ : List Part} {a₁ a₂ : List Nat}
    (h : UnchangedBut s t r₁ p₁ a₁) (k : UnchangedBut t u r₂ p₂ a₂) :
    UnchangedBut s u (r₁ ++ r₂) (p₁ ++ p₂) (a₁ ++ a₂) where
  regs_same r hr :=
    (k.regs_same r fun j => hr (List.mem_append_right _ j)).trans (h.regs_same r fun j => hr (List.mem_append_left _ j))
  index_same hp :=
    (k.index_same fun j => hp (List.mem_append_right _ j)).trans (h.index_same fun j => hp (List.mem_append_left _ j))
  pc_same hp :=
    (k.pc_same fun j => hp (List.mem_append_right _ j)).trans (h.pc_same fun j => hp (List.mem_append_left _ j))
  stack_same hp :=
    (k.stack_same fun j => hp (List.mem_append_right _ j)).trans (h.stack_same fun j => hp (List.mem_append_left _ j))
  dt_same hp :=
    (k.dt_same fun j => hp (List.mem_append_right _ j)).trans (h.dt_same fun j => hp (List.mem_append_left _ j))
  st_same hp :=
    (k.st_same fun j => hp (List.mem_append_right _ j)).trans (h.st_same fun j => hp (List.mem_append_left _ j))
  fb_same hp :=
    (k.fb_same fun j => hp (List.mem_append_right _ j)).trans (h.fb_same fun j => hp (List.mem_append_left _ j))
  dirty_same hp :=
    (k.dirty_same fun j => hp (List.mem_append_right _ j)).trans (h.dirty_same fun j => hp (List.mem_append_left _ j))
  key_same hp :=
    (k.key_same fun j => hp (List.mem_append_right _ j)).trans (h.key_same fun j => hp (List.mem_append_left _ j))
  fault_same hp :=
    (k.fault_same fun j => hp (List.mem_append_right _ j)).trans (h.fault_same fun j => hp (List.mem_append_left _ j))
  draws_same hp :=
    (k.draws_same fun j => hp (List.mem_append_right _ j)).trans (h.draws_same fun j => hp (List.mem_append_left _ j))
  memory_same a ha :=
    (k.memory_same a fun j => ha (List.mem_append_right _ j)).trans (h.memory_same a fun j => ha (List.mem_append_left _ j))
  cfg_same := k.cfg_same.trans h.cfg_same

/-- A frame may name more than changes. -/
theorem UnchangedBut.widen {s t : State} {r₁ r₂ : List Reg} {p₁ p₂ : List Part} {a₁ a₂ : List Nat}
    (h : UnchangedBut s t r₁ p₁ a₁) (hr : r₁ ⊆ r₂) (hp : p₁ ⊆ p₂) (ha : a₁ ⊆ a₂) : UnchangedBut s t r₂ p₂ a₂ where
  regs_same r k := h.regs_same r (fun j => k (hr j))
  index_same k := h.index_same (fun j => k (hp j))
  pc_same k := h.pc_same (fun j => k (hp j))
  stack_same k := h.stack_same (fun j => k (hp j))
  dt_same k := h.dt_same (fun j => k (hp j))
  st_same k := h.st_same (fun j => k (hp j))
  fb_same k := h.fb_same (fun j => k (hp j))
  dirty_same k := h.dirty_same (fun j => k (hp j))
  key_same k := h.key_same (fun j => k (hp j))
  fault_same k := h.fault_same (fun j => k (hp j))
  draws_same k := h.draws_same (fun j => k (hp j))
  memory_same a k := h.memory_same a (fun j => k (ha j))
  cfg_same := h.cfg_same

end Sys2Proof.Machine
end

