-- ==== Sys2Proof/Laws/Memory.lean ====
section
/-! SUPPORT. The laws of memory: a read after a write, the canonical form that every operation keeps, and equality of
canonical memories that read alike (20_memory.md R39, R42; log 7). -/

namespace Sys2Proof.Machine

variable {font : Font}

/-- Addresses strictly rising from a lower bound: the part of the canonical form the induction carries. -/
theorem Memory.wf_nil : Memory.wf font [] := ⟨List.Pairwise.nil, by simp⟩

theorem Memory.wf_cons {c : Host.Cell} {m : Memory} :
    Memory.wf font (c :: m) ↔
      (∀ d ∈ m, c.1 < d.1) ∧ (c.1 < memSize ∧ c.2 ≠ unlistedByte font c.1) ∧ Memory.wf font m := by
  simp only [Memory.wf, List.pairwise_cons, List.mem_cons, forall_eq_or_imp]
  tauto

theorem Memory.read_consCell (a : Nat) (v : Byte) (m : Memory) (b : Nat)
    (h : Memory.read font m a = unlistedByte font a) :
    Memory.read font (Memory.consCell font a v m) b = if b = a then v else Memory.read font m b := by
  unfold Memory.consCell
  split
  case isTrue hv => by_cases hb : b = a <;> simp [hb, h, hv]
  case isFalse hv => simp [Memory.read]

/-- An address below every listed one reads as unlisted. -/
theorem Memory.read_below {m : Memory} {a : Nat} (h : ∀ d ∈ m, a < d.1) :
    Memory.read font m a = unlistedByte font a := by
  induction m with
  | nil => rfl
  | cons c m ih =>
    have hc := h c (by simp)
    simp only [Memory.read]
    rw [if_neg (by omega)]
    exact ih (fun d hd => h d (by simp [hd]))

/-- A read after a write. -/
theorem Memory.read_write {m : Memory} (hm : Memory.wf font m) (a : Nat) (v : Byte) (b : Nat) :
    Memory.read font (Memory.write font m a v) b = if b = a then v else Memory.read font m b := by
  induction m with
  | nil => exact Memory.read_consCell a v [] b rfl
  | cons c m ih =>
    obtain ⟨hlt, -, hwf⟩ := Memory.wf_cons.1 hm
    simp only [Memory.write]
    split
    case isTrue hac =>
      refine Memory.read_consCell a v _ b (Memory.read_below ?_)
      intro d hd
      obtain rfl | hd := List.mem_cons.1 hd
      · exact hac
      · have := hlt d hd; omega
    case isFalse hac =>
      split
      case isTrue heq =>
        subst heq
        rw [Memory.read_consCell _ v m b (Memory.read_below hlt)]
        by_cases hb : b = c.1 <;> simp [Memory.read, hb]
      case isFalse hne =>
        simp only [Memory.read]
        rw [ih hwf]
        by_cases hb : b = c.1
        · have hba : b ≠ a := fun h => hne (h.symm.trans hb)
          simp [hb]; intro h; exact absurd h.symm hne
        · simp [hb]

theorem Memory.mem_consCell {a : Nat} {v : Byte} {m : Memory} {d : Host.Cell}
    (h : d ∈ Memory.consCell font a v m) : d = (a, v) ∧ v ≠ unlistedByte font a ∨ d ∈ m := by
  unfold Memory.consCell at h
  split at h
  case isTrue => exact .inr h
  case isFalse hv =>
    obtain rfl | h := List.mem_cons.1 h
    · exact .inl ⟨rfl, hv⟩
    · exact .inr h

theorem Memory.wf_consCell {a : Nat} {v : Byte} {m : Memory} (hm : Memory.wf font m) (ha : a < memSize)
    (h : ∀ d ∈ m, a < d.1) : Memory.wf font (Memory.consCell font a v m) := by
  unfold Memory.consCell
  split
  case isTrue => exact hm
  case isFalse hv => exact Memory.wf_cons.2 ⟨h, ⟨ha, hv⟩, hm⟩

theorem Memory.mem_write {m : Memory} {a : Nat} {v : Byte} {d : Host.Cell}
    (h : d ∈ Memory.write font m a v) : d.1 = a ∨ d ∈ m := by
  induction m with
  | nil => exact (Memory.mem_consCell h).imp (by rintro ⟨rfl, -⟩; rfl) id
  | cons c m ih =>
    simp only [Memory.write] at h
    split at h
    · exact (Memory.mem_consCell h).imp (by rintro ⟨rfl, -⟩; rfl) id
    · split at h
      · exact (Memory.mem_consCell h).imp (by rintro ⟨rfl, -⟩; rfl) (by simp +contextual)
      · obtain rfl | h := List.mem_cons.1 h
        · simp
        · exact (ih h).imp id (by simp +contextual)

/-- A write inside memory keeps the canonical form. -/
theorem Memory.wf_write {m : Memory} (hm : Memory.wf font m) {a : Nat} (ha : a < memSize) (v : Byte) :
    Memory.wf font (Memory.write font m a v) := by
  induction m with
  | nil => exact Memory.wf_consCell hm ha (by simp)
  | cons c m ih =>
    obtain ⟨hlt, hc, hwf⟩ := Memory.wf_cons.1 hm
    simp only [Memory.write]
    split
    case isTrue hac =>
      refine Memory.wf_consCell hm ha ?_
      intro d hd
      obtain rfl | hd := List.mem_cons.1 hd
      · exact hac
      · have := hlt d hd; omega
    case isFalse hac =>
      split
      case isTrue heq => subst heq; exact Memory.wf_consCell hwf ha hlt
      case isFalse hne =>
        refine Memory.wf_cons.2 ⟨?_, hc, ih hwf⟩
        intro d hd
        obtain h | h := Memory.mem_write hd
        · omega
        · exact hlt d h

/-- Writing a list of bytes inside memory keeps the canonical form. -/
theorem Memory.wf_writeBytes {bs : List Byte} : ∀ {m : Memory} {a : Nat}, Memory.wf font m → inBounds a bs.length →
    Memory.wf font (Memory.writeBytes font m a bs) := by
  induction bs with
  | nil => intro m a hm _; exact hm
  | cons b bs ih =>
    intro m a hm hb
    simp only [inBounds, List.length_cons, memSize] at hb
    refine ih (Memory.wf_write hm (by simp only [memSize]; omega) b) ?_
    simp only [inBounds, memSize]; omega

/-- A read after a list of bytes is written: the byte written there, or the byte before. -/
theorem Memory.read_writeBytes {bs : List Byte} : ∀ {m : Memory} {a : Nat}, Memory.wf font m →
    inBounds a bs.length → ∀ b, Memory.read font (Memory.writeBytes font m a bs) b =
      if a ≤ b then bs.getD (b - a) (Memory.read font m b) else Memory.read font m b := by
  induction bs with
  | nil => intro m a _ _ b; simp [Memory.writeBytes]
  | cons v bs ih =>
    intro m a hm hb b
    simp only [inBounds, List.length_cons, memSize] at hb
    simp only [Memory.writeBytes]
    rw [ih (Memory.wf_write hm (by simp only [memSize]; omega) v) (by simp only [inBounds, memSize]; omega),
      Memory.read_write hm]
    obtain h | rfl | h := Nat.lt_trichotomy b a
    · rw [if_neg (by omega), if_neg (by omega), if_neg (by omega)]
    · simp
    · obtain ⟨k, rfl⟩ : ∃ k, b = a + 1 + k := ⟨b - (a + 1), by omega⟩
      rw [if_pos (by omega), if_neg (by omega), if_pos (by omega)]
      have h1 : a + 1 + k - (a + 1) = k := by omega
      have h2 : a + 1 + k - a = k + 1 := by omega
      simp [h1, h2]

/-- An address outside the bytes written reads as before. -/
theorem Memory.read_writeBytes_outside {bs : List Byte} {m : Memory} {a : Nat} (hm : Memory.wf font m)
    (ha : inBounds a bs.length) {b : Nat} (hb : b < a ∨ a + bs.length ≤ b) :
    Memory.read font (Memory.writeBytes font m a bs) b = Memory.read font m b := by
  rw [Memory.read_writeBytes hm ha]
  split
  · rw [List.getD_eq_default _ _ (by omega)]
  · rfl

/-- The head of a canonical memory is what distinguishes it from every memory that lists only higher addresses. -/
theorem Memory.read_head {c : Host.Cell} {m : Memory} (hm : Memory.wf font (c :: m)) :
    Memory.read font (c :: m) c.1 ≠ unlistedByte font c.1 := by
  simpa [Memory.read] using (Memory.wf_cons.1 hm).2.1.2

theorem Memory.read_tail {c : Host.Cell} {m : Memory} (hm : Memory.wf font (c :: m)) (a : Nat) :
    Memory.read font m a = if a = c.1 then unlistedByte font a else Memory.read font (c :: m) a := by
  split
  case isTrue h => subst h; exact Memory.read_below (Memory.wf_cons.1 hm).1
  case isFalse h => simp [Memory.read, h]

end Sys2Proof.Machine
end

