-- ==== Sys2Proof/Laws/Ops.lean ====
section
/-! SUPPORT. One lemma per shared operation: everything it can do, cited in place of unfolding it. -/

namespace Sys2Proof.Machine

variable (s : State)

/-! ## Range loads and stores -/

theorem loadBytes_inside {a n : Nat} (h : n = 0 ∨ a + n ≤ 4096) :
    s.loadBytes a n = some ((List.range n).map (fun k => s.readByte (a + k))) := if_pos h

theorem loadBytes_outside {a n : Nat} (h : ¬(n = 0 ∨ a + n ≤ 4096)) : s.loadBytes a n = none := if_neg h

/-- A range load answers either the bytes of a range inside memory, or nothing for a range that leaves it. -/
theorem loadBytes_cases (a n : Nat) :
    (n = 0 ∨ a + n ≤ 4096) ∧ s.loadBytes a n = some ((List.range n).map (fun k => s.readByte (a + k))) ∨
    ¬(n = 0 ∨ a + n ≤ 4096) ∧ s.loadBytes a n = none := by
  by_cases h : n = 0 ∨ a + n ≤ 4096
  · exact .inl ⟨h, loadBytes_inside s h⟩
  · exact .inr ⟨h, loadBytes_outside s h⟩

theorem storeBytes_inside {a : Nat} {bs : List Byte} (h : bs.length = 0 ∨ a + bs.length ≤ 4096) :
    s.storeBytes a bs = some { s with mem := Memory.writeBytes s.cfg.font s.mem a bs } := if_pos h

theorem storeBytes_outside {a : Nat} {bs : List Byte} (h : ¬(bs.length = 0 ∨ a + bs.length ≤ 4096)) :
    s.storeBytes a bs = none := if_neg h

/-- Every byte of a written range reads as written, and every byte outside it as before. -/
theorem readByte_writeBytes {s : State} (hm : Memory.wf s.cfg.font s.mem) {a : Nat} {bs : List Byte}
    (h : bs.length = 0 ∨ a + bs.length ≤ 4096) (b : Nat) :
    State.readByte { s with mem := Memory.writeBytes s.cfg.font s.mem a bs } b =
      if a ≤ b then bs.getD (b - a) (s.readByte b) else s.readByte b :=
  Memory.read_writeBytes hm h b

/-- The frame of a range store: the bytes of the range. -/
theorem UnchangedBut.writeBytes {s : State} (hm : Memory.wf s.cfg.font s.mem) {a : Nat} {bs : List Byte}
    (h : bs.length = 0 ∨ a + bs.length ≤ 4096) :
    UnchangedBut s { s with mem := Memory.writeBytes s.cfg.font s.mem a bs } [] []
      ((List.range bs.length).map (a + ·)) := by
  refine ⟨?_, ?_, ?_, ?_, ?_, ?_, ?_, ?_, ?_, ?_, ?_, fun b hb => ?_, rfl⟩
  case refine_12 =>
    refine Memory.read_writeBytes_outside hm h ?_
    by_contra hc
    exact hb (List.mem_map.2 ⟨b - a, List.mem_range.2 (by omega), by omega⟩)
  all_goals intros; rfl

/-- Byte k of a loaded range. -/
theorem getD_loaded (n : Nat) (f : Nat → Byte) {k : Nat} (h : k < n) (d : Byte) :
    ((List.range n).map f).getD k d = f k := by
  simp [List.getD_eq_getElem?_getD, h]

/-- Past a loaded range there is no byte. -/
theorem getD_past_loaded (n : Nat) (f : Nat → Byte) {k : Nat} (h : n ≤ k) (d : Byte) :
    ((List.range n).map f).getD k d = d :=
  List.getD_eq_default _ _ (by simpa using h)

/-! ## Registers as a list -/

/-- The frame of a register load: the registers below the list's length. -/
theorem UnchangedBut.setRegs (bs : List Byte) (regs : List Reg) (h : ∀ r : Reg, r ∉ regs → bs.length ≤ r) :
    UnchangedBut s (s.setRegs bs) regs [] [] where
  regs_same r hr := by rw [setRegs_reg, List.getD_eq_default _ _ (h r hr)]
  index_same _ := setRegs_index s bs
  pc_same _ := setRegs_pc s bs
  stack_same _ := setRegs_stack s bs
  dt_same _ := setRegs_dt s bs
  st_same _ := setRegs_st s bs
  fb_same _ := setRegs_fb s bs
  dirty_same _ := setRegs_dirty s bs
  key_same _ := setRegs_key s bs
  fault_same _ := setRegs_fault s bs
  draws_same _ := setRegs_draws s bs
  memory_same a _ := setRegs_readByte s bs a
  cfg_same := setRegs_cfg s bs

@[simp] theorem regsUpTo_length (x : Reg) : (s.regsUpTo x).length = x + 1 := by
  simp only [State.regsUpTo, List.length_take, Vector.length_toList]; omega

theorem regsUpTo_getD (x r : Reg) (h : r ≤ x) (d : Byte) : (s.regsUpTo x).getD r d = s.reg r := by
  have hr : r.val < x + 1 := by have := Fin.le_def.1 h; omega
  simp only [State.regsUpTo, State.reg, List.getD_eq_getElem?_getD, List.getElem?_take, if_pos hr]
  simp

/-! ## The stack -/

theorem pop_append {rest : List Word} {w : Word} (h : s.stack = rest ++ [w]) :
    s.pop = some (w, { s with stack := rest }) := by
  simp [State.pop, h]

theorem pop_empty (h : s.stack = []) : s.pop = none := by
  simp [State.pop, h]

/-- A pop answers the top and the machine without it, or nothing on an empty stack. -/
theorem pop_cases : (∃ rest w, s.stack = rest ++ [w] ∧ s.pop = some (w, { s with stack := rest })) ∨
    s.stack = [] ∧ s.pop = none := by
  obtain h | ⟨rest, w, h⟩ := s.stack.eq_nil_or_concat
  · exact .inr ⟨h, pop_empty s h⟩
  · rw [List.concat_eq_append] at h
    exact .inl ⟨rest, w, h, pop_append s h⟩

/-! ## Keys -/

theorem keyOf_inside {b : Byte} {k : Reg} (h : b.toNat = k) : keyOf b = some k := by
  unfold keyOf
  rw [dif_pos (by omega)]
  exact congrArg some (Fin.ext h)

theorem keyOf_outside {b : Byte} (h : 15 < b.toNat) : keyOf b = none := dif_neg (by omega)

/-- The key a byte names, or none above 15. -/
theorem keyOf_cases (b : Byte) : (∃ k : Reg, b.toNat = k ∧ keyOf b = some k) ∨ 15 < b.toNat ∧ keyOf b = none := by
  by_cases h : b.toNat < 16
  · exact .inl ⟨⟨b.toNat, h⟩, rfl, keyOf_inside rfl⟩
  · exact .inr ⟨by omega, keyOf_outside (by omega)⟩

/-- The scan finds the least pressed key. -/
theorem firstKey_least {k : Reg} (hk : s.key[k] = true) (hlt : ∀ j : Reg, j < k → s.key[j] = false) :
    s.firstKey = some k := by
  rw [State.firstKey, List.find?_eq_some_iff_getElem]
  refine ⟨hk, k, by simp, by simp, fun j hj => ?_⟩
  simpa using hlt ⟨j, by omega⟩ hj

theorem firstKey_none (h : ∀ k : Reg, s.key[k] = false) : s.firstKey = none := by
  rw [State.firstKey, List.find?_eq_none]
  intro k _
  simp only [h k, Bool.false_eq_true, not_false_iff]

/-! ## Faults -/

/-- Raising answers the machine with the record and nothing else changed. -/
theorem raise_next (i : Instr) (cause : FaultCause) (info : Option Nat) {a : Word} (h : s.pc = a + 2) :
    s.raise i cause info =
      .next (s.takeFault { cause := cause, instrAddr := a, word := some (encode i), info := info }) := by
  have : s.pc - 2 = a := by rw [h]; exact BitVec.add_sub_cancel a 2
  rw [State.raise, this]

/-! ## Run status and fetch -/

theorem status_fatal : s.status = .fatal ↔ s.fault ≠ none := by
  cases h : s.fault <;> simp [State.status, h]
  split <;> simp

theorem status_halted : s.status = .halted ↔ s.fault = none ∧ 4096 ≤ s.pc.toNat := by
  cases h : s.fault <;> simp [State.status, h]

theorem status_running : s.status = .running ↔ s.fault = none ∧ s.pc.toNat < 4096 := by
  cases h : s.fault <;> simp [State.status, h]

/-- The fetch gives the big-endian word at pc. -/
theorem fetchWord_inside (h : s.pc.toNat < 4095) :
    s.fetchWord = some (s.readByte s.pc.toNat ++ s.readByte (s.pc.toNat + 1)) := by
  rw [State.fetchWord, loadBytes_inside s (.inr (by omega))]
  rfl

theorem fetchWord_outside (h : 4095 ≤ s.pc.toNat) : s.fetchWord = none := by
  rw [State.fetchWord, loadBytes_outside s (by omega)]

/-- A word can be fetched only below 4095. -/
theorem fetchWord_some {w : Word} (h : s.fetchWord = some w) :
    s.pc.toNat < 4095 ∧ w = s.readByte s.pc.toNat ++ s.readByte (s.pc.toNat + 1) := by
  by_cases hp : s.pc.toNat < 4095
  · rw [fetchWord_inside s hp] at h
    exact ⟨hp, (Option.some.inj h).symm⟩
  · rw [fetchWord_outside s (by omega)] at h
    cases h

/-! ## The step -/

theorem step_stopped (h : s.status ≠ .running) : step s = .next s := by
  unfold step
  split <;> first | rfl | contradiction

theorem step_fetch_fault (h : s.status = .running) (hp : s.pc.toNat = 4095) :
    step s = .next (s.takeFault
      { cause := .fetchOutOfBounds, instrAddr := s.pc, word := none, info := some 4096 }) := by
  unfold step
  rw [h, fetchWord_outside s (by omega)]
  simp [State.raiseFetch, hp]

theorem step_running (h : s.status = .running) {w : Word} (hw : s.fetchWord = some w) :
    step s = exec (decodeWord w) s.advancePc := by
  unfold step
  rw [h, hw]

/-- Everything a step can do (30_encoding.md R47): stay as it is, raise the fetch fault, or run the decoded word. -/
theorem step_cases :
    (s.status ≠ .running ∧ step s = .next s) ∨
    (s.status = .running ∧ s.pc.toNat = 4095 ∧ step s = .next (s.takeFault
      { cause := .fetchOutOfBounds, instrAddr := s.pc, word := none, info := some 4096 })) ∨
    (s.status = .running ∧ s.pc.toNat < 4095 ∧ ∃ w, s.fetchWord = some w ∧
      step s = exec (decodeWord w) s.advancePc) := by
  by_cases h : s.status = .running
  · have hp := ((status_running s).1 h).2
    by_cases h' : s.pc.toNat = 4095
    · exact .inr (.inl ⟨h, h', step_fetch_fault s h h'⟩)
    · have hw := fetchWord_inside s (by omega)
      exact .inr (.inr ⟨h, by omega, _, hw, step_running s h hw⟩)
  · exact .inl ⟨h, step_stopped s h⟩

/-! ## Timers -/

theorem decrement_toNat (b : Byte) : (decrement b).toNat = b.toNat - 1 := by
  unfold decrement
  split
  · have := b.isLt
    rw [BitVec.toNat_sub, show (1 : Byte).toNat = 1 from rfl]; omega
  · omega

end Sys2Proof.Machine
end

