-- ==== Sys2Proof/Laws/Exec.lean ====
section
/-! SUPPORT. Operand and flag values as natural numbers, and one lemma per meaning that branches: everything it can
answer, its guard included, so that no later proof unfolds it. -/

namespace Sys2Proof.Machine

/-! ## Operands and flags as numbers -/

theorem zextAddr_toNat (n : Addr12) : (zextAddr n).toNat = n.toNat := by
  have := n.isLt
  simp only [zextAddr, BitVec.toNat_setWidth]; omega

theorem zextByte_toNat (b : Byte) : (zextByte b).toNat = b.toNat := by
  have := b.isLt
  simp only [zextByte, BitVec.toNat_setWidth]; omega

theorem flagOf_toNat (c : Bool) : (flagOf c).toNat = if c then 1 else 0 := by cases c <;> rfl

theorem lsbFlag_toNat (b : Byte) : (lsbFlag b).toNat = b.toNat % 2 := by revert b; decide

theorem msbFlag_toNat (b : Byte) : (msbFlag b).toNat = b.toNat / 128 := by revert b; decide

/-- A byte difference as a natural number, with no truncated subtraction. -/
theorem byte_sub_toNat (a b : Byte) : (a - b).toNat = (a.toNat + 256 - b.toNat) % 256 := by
  have := a.isLt
  have := b.isLt
  rw [BitVec.toNat_sub]; congr 1; omega

@[simp] theorem bcdDigits_length (b : Byte) : (bcdDigits b).length = 3 := rfl

/-! ## What each branching meaning answers -/

/-- Raising a fault answers the state that holds R102's record. -/
theorem raise_eq_next {s t : State} {i : Instr} {c : FaultCause} {f : Option Nat} (h : s.raise i c f = .next t) :
    t = s.takeFault { cause := c, instrAddr := s.pc - 2, word := some (encode i), info := f } := by
  unfold State.raise at h
  injection h with h
  exact h.symm

/-- 00EE pops, or faults on an empty stack. -/
theorem execRet_eq_next {s t : State} (h : execRet s = .next t) :
    (∃ rest w, s.stack = rest ++ [w] ∧ t = ({ s with stack := rest } : State).setPc w) ∨
    (s.stack = [] ∧ t = s.takeFault
      { cause := .stackUnderflow, instrAddr := s.pc - 2, word := some (encode .ret), info := none }) := by
  unfold execRet at h
  obtain ⟨rest, w, hs, hp⟩ | ⟨hs, hp⟩ := pop_cases s
  · rw [hp] at h
    injection h with h
    exact .inl ⟨rest, w, hs, h.symm⟩
  · rw [hp] at h
    exact .inr ⟨hs, raise_eq_next h⟩

/-- 2nnn pushes and jumps, or faults on a full stack. -/
theorem execCall_eq_next {n : Addr12} {s t : State} (h : execCall n s = .next t) :
    (s.sp ≠ s.cfg.stackDepth ∧ t = (s.push s.pc).setPc (zextAddr n)) ∨
    (s.sp = s.cfg.stackDepth ∧ t = s.takeFault
      { cause := .stackOverflow, instrAddr := s.pc - 2, word := some (encode (.call n)), info := some s.sp }) := by
  unfold execCall at h
  split at h
  next k => exact .inr ⟨k, raise_eq_next h⟩
  next k =>
    injection h with h
    exact .inl ⟨k, h.symm⟩

/-- Fx33 stores three digits, or faults. -/
theorem execLdB_eq_next {x : Reg} {s t : State} (h : execLdB x s = .next t) :
    (s.dataAddr + 2 < 4096 ∧
      t = { s with mem := Memory.writeBytes s.cfg.font s.mem s.dataAddr (bcdDigits (s.reg x)) }) ∨
    (s.dataAddr + 2 ≥ 4096 ∧ t = s.takeFault
      { cause := .storeOutOfBounds, instrAddr := s.pc - 2, word := some (encode (.ldB x)),
        info := some (max s.dataAddr 4096) }) := by
  unfold execLdB at h
  by_cases k : s.dataAddr + 2 < 4096
  · rw [storeBytes_inside s (.inr (by rw [bcdDigits_length]; omega))] at h
    injection h with h
    exact .inl ⟨k, h.symm⟩
  · rw [storeBytes_outside s (by rw [bcdDigits_length]; omega)] at h
    exact .inr ⟨by omega, raise_eq_next h⟩

/-- Fx55 stores V0 to V[x], or faults. -/
theorem execStRegs_eq_next {x : Reg} {s t : State} (h : execStRegs x s = .next t) :
    (s.dataAddr + x < 4096 ∧
      t = { s with mem := Memory.writeBytes s.cfg.font s.mem s.dataAddr (s.regsUpTo x) }) ∨
    (s.dataAddr + x ≥ 4096 ∧ t = s.takeFault
      { cause := .storeOutOfBounds, instrAddr := s.pc - 2, word := some (encode (.stRegs x)),
        info := some (max s.dataAddr 4096) }) := by
  unfold execStRegs at h
  by_cases k : s.dataAddr + x < 4096
  · rw [storeBytes_inside s (.inr (by rw [regsUpTo_length]; omega))] at h
    injection h with h
    exact .inl ⟨k, h.symm⟩
  · rw [storeBytes_outside s (by rw [regsUpTo_length]; omega)] at h
    exact .inr ⟨by omega, raise_eq_next h⟩

/-- Fx65 loads V0 to V[x], or faults. -/
theorem execLdRegs_eq_next {x : Reg} {s t : State} (h : execLdRegs x s = .next t) :
    (s.dataAddr + x < 4096 ∧
      t = s.setRegs ((List.range (x + 1)).map (fun k => s.readByte (s.dataAddr + k)))) ∨
    (s.dataAddr + x ≥ 4096 ∧ t = s.takeFault
      { cause := .loadOutOfBounds, instrAddr := s.pc - 2, word := some (encode (.ldRegs x)),
        info := some (max s.dataAddr 4096) }) := by
  unfold execLdRegs at h
  by_cases k : s.dataAddr + x < 4096
  · rw [loadBytes_inside s (.inr (by omega))] at h
    injection h with h
    exact .inl ⟨k, h.symm⟩
  · rw [loadBytes_outside s (by omega)] at h
    exact .inr ⟨by omega, raise_eq_next h⟩

/-- Dxyn writes VF, the framebuffer and DIRTY, or faults. -/
theorem execDrw_eq_next {x y : Reg} {n : Nibble} {s t : State} (h : execDrw x y n s = .next t) :
    (¬(n.toNat > 0 ∧ s.dataAddr + n.toNat - 1 ≥ 4096) ∧ ∃ f fb, t = (s.setFlag f).drawScreen fb) ∨
    ((n.toNat > 0 ∧ s.dataAddr + n.toNat - 1 ≥ 4096) ∧ t = s.takeFault
      { cause := .loadOutOfBounds, instrAddr := s.pc - 2, word := some (encode (.drw x y n)),
        info := some (max s.dataAddr 4096) }) := by
  unfold execDrw at h
  by_cases k : n.toNat > 0 ∧ s.dataAddr + n.toNat - 1 ≥ 4096
  · rw [loadBytes_outside s (by simp only [countOf]; omega)] at h
    exact .inr ⟨k, raise_eq_next h⟩
  · rw [loadBytes_inside s (by simp only [countOf]; omega)] at h
    injection h with h
    exact .inl ⟨k, _, _, h.symm⟩

/-- Ex9E skips or not, or faults above key 15. -/
theorem execSkp_eq_next {x : Reg} {s t : State} (h : execSkp x s = .next t) :
    (¬(s.reg x).toNat > 15 ∧ ∃ c, t = s.skipIf c) ∨
    ((s.reg x).toNat > 15 ∧ t = s.takeFault
      { cause := .keyIndexOutOfRange, instrAddr := s.pc - 2, word := some (encode (.skp x)),
        info := some (s.reg x).toNat }) := by
  unfold execSkp at h
  obtain ⟨k, hk, e⟩ | ⟨hk, e⟩ := keyOf_cases (s.reg x)
  · rw [e] at h
    injection h with h
    exact .inl ⟨by omega, _, h.symm⟩
  · rw [e] at h
    exact .inr ⟨hk, raise_eq_next h⟩

/-- ExA1 skips or not, or faults above key 15. -/
theorem execSknp_eq_next {x : Reg} {s t : State} (h : execSknp x s = .next t) :
    (¬(s.reg x).toNat > 15 ∧ ∃ c, t = s.skipIf c) ∨
    ((s.reg x).toNat > 15 ∧ t = s.takeFault
      { cause := .keyIndexOutOfRange, instrAddr := s.pc - 2, word := some (encode (.sknp x)),
        info := some (s.reg x).toNat }) := by
  unfold execSknp at h
  obtain ⟨k, hk, e⟩ | ⟨hk, e⟩ := keyOf_cases (s.reg x)
  · rw [e] at h
    injection h with h
    exact .inl ⟨by omega, _, h.symm⟩
  · rw [e] at h
    exact .inr ⟨hk, raise_eq_next h⟩

/-- Fx0A stores the least pressed key, or sets pc back when none is pressed. -/
theorem execLdVxK_eq_next {x : Reg} {s t : State} (h : execLdVxK x s = .next t) :
    (∃ k, s.firstKey = some k ∧ t = s.setReg x (BitVec.ofNat 8 k)) ∨ (s.firstKey = none ∧ t = s.rewindPc) := by
  unfold execLdVxK at h
  split at h <;> injection h with h
  · exact .inl ⟨_, ‹_›, h.symm⟩
  · exact .inr ⟨‹_›, h.symm⟩

end Sys2Proof.Machine
end

