-- ==== Sys2Proof/Laws/PerInstr.lean ====
section
/-! SUPPORT. Statements for all instructions, made per constructor. RoundTrip: decoding the encoding of a well-formed
instruction gives it back, with every operand at every value its field admits (30_encoding.md R49, R51). -/

namespace Sys2Proof.Laws.RoundTrip

/-- Decode undoes encode for this instruction. -/
def Statement (i : Instr) : Prop := i.wf = true → decodeWord (encode i) = i

theorem cls : Statement .cls := fun _ => by decide

theorem ret : Statement .ret := fun _ => by decide

theorem jp (nnn : Addr12) : Statement (.jp nnn) := fun _ => by
  simp [encode, decodeWord]

theorem call (nnn : Addr12) : Statement (.call nnn) := fun _ => by
  simp [encode, decodeWord]

theorem seImm (x : Reg) (kk : Byte) : Statement (.seImm x kk) := fun _ => by
  simp [encode, decodeWord]

theorem sneImm (x : Reg) (kk : Byte) : Statement (.sneImm x kk) := fun _ => by
  simp [encode, decodeWord]

theorem seReg (x y : Reg) (u : Nibble) : Statement (.seReg x y u) := fun _ => by
  simp [encode, decodeWord]

theorem ldImm (x : Reg) (kk : Byte) : Statement (.ldImm x kk) := fun _ => by
  simp [encode, decodeWord]

theorem addImm (x : Reg) (kk : Byte) : Statement (.addImm x kk) := fun _ => by
  simp [encode, decodeWord]

theorem ldReg (x y : Reg) : Statement (.ldReg x y) := fun _ => by
  simp [encode, decodeWord, decodeClass8]

theorem orReg (x y : Reg) : Statement (.orReg x y) := fun _ => by
  simp [encode, decodeWord, decodeClass8]

theorem andReg (x y : Reg) : Statement (.andReg x y) := fun _ => by
  simp [encode, decodeWord, decodeClass8]

theorem xorReg (x y : Reg) : Statement (.xorReg x y) := fun _ => by
  simp [encode, decodeWord, decodeClass8]

theorem addReg (x y : Reg) : Statement (.addReg x y) := fun _ => by
  simp [encode, decodeWord, decodeClass8]

theorem subReg (x y : Reg) : Statement (.subReg x y) := fun _ => by
  simp [encode, decodeWord, decodeClass8]

theorem shr (x y : Reg) : Statement (.shr x y) := fun _ => by
  simp [encode, decodeWord, decodeClass8]

theorem subnReg (x y : Reg) : Statement (.subnReg x y) := fun _ => by
  simp [encode, decodeWord, decodeClass8]

theorem shl (x y : Reg) : Statement (.shl x y) := fun _ => by
  simp [encode, decodeWord, decodeClass8]

theorem sneReg (x y : Reg) (u : Nibble) : Statement (.sneReg x y u) := fun _ => by
  simp [encode, decodeWord]

theorem ldI (nnn : Addr12) : Statement (.ldI nnn) := fun _ => by
  simp [encode, decodeWord]

theorem jpV0 (nnn : Addr12) : Statement (.jpV0 nnn) := fun _ => by
  simp [encode, decodeWord]

theorem rnd (x : Reg) (kk : Byte) : Statement (.rnd x kk) := fun _ => by
  simp [encode, decodeWord]

theorem drw (x y : Reg) (n : Nibble) : Statement (.drw x y n) := fun _ => by
  simp [encode, decodeWord]

theorem skp (x : Reg) : Statement (.skp x) := fun _ => by
  simp [encode, decodeWord, decodeClassE]

theorem sknp (x : Reg) : Statement (.sknp x) := fun _ => by
  simp [encode, decodeWord, decodeClassE]

theorem ldVxDt (x : Reg) : Statement (.ldVxDt x) := fun _ => by
  simp [encode, decodeWord, decodeClassF]

theorem ldVxK (x : Reg) : Statement (.ldVxK x) := fun _ => by
  simp [encode, decodeWord, decodeClassF]

theorem ldDtVx (x : Reg) : Statement (.ldDtVx x) := fun _ => by
  simp [encode, decodeWord, decodeClassF]

theorem ldStVx (x : Reg) : Statement (.ldStVx x) := fun _ => by
  simp [encode, decodeWord, decodeClassF]

theorem addI (x : Reg) : Statement (.addI x) := fun _ => by
  simp [encode, decodeWord, decodeClassF]

theorem ldF (x : Reg) : Statement (.ldF x) := fun _ => by
  simp [encode, decodeWord, decodeClassF]

theorem ldB (x : Reg) : Statement (.ldB x) := fun _ => by
  simp [encode, decodeWord, decodeClassF]

theorem stRegs (x : Reg) : Statement (.stRegs x) := fun _ => by
  simp [encode, decodeWord, decodeClassF]

theorem ldRegs (x : Reg) : Statement (.ldRegs x) := fun _ => by
  simp [encode, decodeWord, decodeClassF]

theorem nop0 (nnn : Addr12) : Statement (.nop0 nnn) := by
  intro h
  simp [Instr.wf] at h
  simp [encode, decodeWord, decodeClass0, h]

theorem nop8 (x y : Reg) (u : Nibble) : Statement (.nop8 x y u) := by
  intro h
  simp only [Instr.wf, reserved8, Bool.or_eq_true, decide_eq_true_eq] at h
  rcases h with (((((rfl | rfl) | rfl) | rfl) | rfl) | rfl) | rfl <;> simp [encode, decodeWord, decodeClass8]

theorem nopE (x : Reg) (kk : Byte) : Statement (.nopE x kk) := by
  intro h
  simp [Instr.wf, reservedE] at h
  simp [encode, decodeWord, decodeClassE, h]

theorem nopF (x : Reg) (kk : Byte) : Statement (.nopF x kk) := by
  intro h
  simp [Instr.wf, reservedF] at h
  simp [encode, decodeWord, decodeClassF, h]

end Sys2Proof.Laws.RoundTrip
end

