-- ==== Sys2Proof/Tests/Slice0.lean ====
section
/-! SUPPORT. The model's own tests: the WellFormed smoke tests, one decoded word per constructor written out from the
spec's encoding, and single steps on small states. Expected results are from spec/95_test_vectors.md (the vector's
name stands in each test's comment) or from the rule named. -/

namespace Sys2Proof.Machine

/-! ## WellFormed refuses an ill-formed term of each check (30_encoding.md R52, R54, R55, R56) -/

theorem test_wf_refuses_nop0_of_clear_and_return : Instr.wf (.nop0 0x0E0) = false ∧ Instr.wf (.nop0 0x0EE) = false := by
  decide

theorem test_wf_refuses_nop8_of_an_instruction :
    Instr.wf (.nop8 1 2 0x4) = false ∧ Instr.wf (.nop8 1 2 0xE) = false := by decide

theorem test_wf_refuses_nopE_of_a_key_skip : Instr.wf (.nopE 1 0x9E) = false ∧ Instr.wf (.nopE 1 0xA1) = false := by
  decide

theorem test_wf_refuses_nopF_of_an_instruction :
    Instr.wf (.nopF 1 0x07) = false ∧ Instr.wf (.nopF 1 0x65) = false := by decide

theorem test_wf_accepts_reserved_words :
    Instr.wf (.nop0 0x000) ∧ Instr.wf (.nop8 1 2 0xF) ∧ Instr.wf (.nopE 1 0x9F) ∧ Instr.wf (.nopF 1 0xFF) := by decide

/-! ## Decoding, one word per constructor (R51; the bits are those of the row's encoding) -/

theorem test_decode_cls : decodeWord 0b0000_0000_1110_0000 = .cls := by decide

theorem test_decode_ret : decodeWord 0b0000_0000_1110_1110 = .ret := by decide

theorem test_decode_jp : decodeWord 0b0001_1010_1011_1100 = .jp 0xABC := by decide

theorem test_decode_call : decodeWord 0b0010_1010_1011_1100 = .call 0xABC := by decide

theorem test_decode_seImm : decodeWord 0b0011_1010_0100_0010 = .seImm 10 0x42 := by decide

theorem test_decode_sneImm : decodeWord 0b0100_1010_0100_0010 = .sneImm 10 0x42 := by decide

theorem test_decode_seReg : decodeWord 0b0101_0001_0010_0111 = .seReg 1 2 0x7 := by decide

theorem test_decode_ldImm : decodeWord 0b0110_1010_0101_0101 = .ldImm 10 0x55 := by decide

theorem test_decode_addImm : decodeWord 0b0111_1010_1111_1111 = .addImm 10 0xFF := by decide

theorem test_decode_ldReg : decodeWord 0b1000_0001_0010_0000 = .ldReg 1 2 := by decide

theorem test_decode_orReg : decodeWord 0b1000_0001_0010_0001 = .orReg 1 2 := by decide

theorem test_decode_andReg : decodeWord 0b1000_0001_0010_0010 = .andReg 1 2 := by decide

theorem test_decode_xorReg : decodeWord 0b1000_0001_0010_0011 = .xorReg 1 2 := by decide

theorem test_decode_addReg : decodeWord 0b1000_0001_0010_0100 = .addReg 1 2 := by decide

theorem test_decode_subReg : decodeWord 0b1000_0001_0010_0101 = .subReg 1 2 := by decide

theorem test_decode_shr : decodeWord 0b1000_0001_0010_0110 = .shr 1 2 := by decide

theorem test_decode_subnReg : decodeWord 0b1000_0001_0010_0111 = .subnReg 1 2 := by decide

theorem test_decode_shl : decodeWord 0b1000_0001_0010_1110 = .shl 1 2 := by decide

theorem test_decode_sneReg : decodeWord 0b1001_0001_0010_1111 = .sneReg 1 2 0xf := by decide

theorem test_decode_ldI : decodeWord 0b1010_0001_0010_0011 = .ldI 0x123 := by decide

theorem test_decode_jpV0 : decodeWord 0b1011_1111_1111_1110 = .jpV0 0xFFE := by decide

theorem test_decode_rnd : decodeWord 0b1100_0011_0000_1111 = .rnd 3 0x0F := by decide

theorem test_decode_drw : decodeWord 0b1101_0001_0010_0101 = .drw 1 2 0x5 := by decide

theorem test_decode_skp : decodeWord 0b1110_0101_1001_1110 = .skp 5 := by decide

theorem test_decode_sknp : decodeWord 0b1110_0101_1010_0001 = .sknp 5 := by decide

theorem test_decode_ldVxDt : decodeWord 0b1111_0011_0000_0111 = .ldVxDt 3 := by decide

theorem test_decode_ldVxK : decodeWord 0b1111_0101_0000_1010 = .ldVxK 5 := by decide

theorem test_decode_ldDtVx : decodeWord 0b1111_0011_0001_0101 = .ldDtVx 3 := by decide

theorem test_decode_ldStVx : decodeWord 0b1111_0011_0001_1000 = .ldStVx 3 := by decide

theorem test_decode_addI : decodeWord 0b1111_0010_0001_1110 = .addI 2 := by decide

theorem test_decode_ldF : decodeWord 0b1111_0010_0010_1001 = .ldF 2 := by decide

theorem test_decode_ldB : decodeWord 0b1111_0010_0011_0011 = .ldB 2 := by decide

theorem test_decode_stRegs : decodeWord 0b1111_0011_0101_0101 = .stRegs 3 := by decide

theorem test_decode_ldRegs : decodeWord 0b1111_0011_0110_0101 = .ldRegs 3 := by decide

theorem test_decode_nop0 : decodeWord 0b0000_0001_1110_0000 = .nop0 0x1E0 := by decide

theorem test_decode_nop8 : decodeWord 0b1000_0001_0010_1011 = .nop8 1 2 0xb := by decide

theorem test_decode_nopE : decodeWord 0b1110_0001_1001_1111 = .nopE 1 0x9F := by decide

theorem test_decode_nopF : decodeWord 0b1111_0001_1111_1111 = .nopF 1 0xFF := by decide

/-! ## Bytes and table words (20_memory.md R36, R60) -/

theorem test_decode_bytes_big_endian : decode [0x12, 0x34, 0x56] = .ok (.jp 0x234, [0x56]) := by rfl

theorem test_decode_one_byte_is_rejected : decode [0x12] = .error .needsTwoBytes := by rfl

theorem test_decode_table_word : decodeTableWord 16 0x8124 = some (.addReg 1 2) := by decide

/-! ## Single steps

`run w f` is the state after one step on word w at 0x200 of a freshly constructed machine changed by f. -/

def run (w : Nat) (f : State → State) : State :=
  match step ((f State.reset).withFetchWord 16 w) with
  | .next t => t
  | .fault _ => State.reset
  | .refused _ => State.reset

/-- The record a fault of the instruction w at 0x200 leaves. -/
def recordAt200 (w : Word) (cause : FaultCause) (info : Option Nat) : Option FaultRecord :=
  some { cause := cause, instrAddr := 0x200, word := some w, info := info }

/-- M[a] <- b on a small test state. -/
def poke (s : State) (a : Nat) (b : Byte) : State := { s with mem := Memory.write s.cfg.font s.mem a b }

/-- V1. -/
theorem test_nop_runs_on :
    (run 0x0000 id).pc = 0x202 ∧ (run 0x0000 id).status = .running := by decide

/-- V2. -/
theorem test_class0_matches_the_whole_word :
    (run 0x01E0 (fun s => s.drawScreen (Framebuffer.setPixel s.fb 0 0 true))).pixel 0 0 = true := by decide

/-- V4. -/
theorem test_nop8_changes_no_register :
    let t := run 0x8128 (fun s => (s.setReg 1 3).setReg 2 4)
    t.pc = 0x202 ∧ t.reg 1 = 3 ∧ t.reg 2 = 4 ∧ t.reg VF = 0 := by decide

/-- V5, with V1 = 0xFF. -/
theorem test_nopE_asks_for_no_key :
    (run 0xE19F (fun s => s.setReg 1 0xFF)).fault = none := by decide

/-- V6. -/
theorem test_nopF_only_advances :
    (run 0xF1FF (fun s => s.setReg 1 0xFF)).pc = 0x202 := by decide

/-- V9. -/
theorem test_odd_pc_is_fetched :
    (run 0x612A (fun s => s.setPc 0x203)).reg 1 = 0x2A ∧ (run 0x612A (fun s => s.setPc 0x203)).pc = 0x205 := by decide

/-- V10. -/
theorem test_step_at_4094_halts :
    (run 0x0000 (fun s => s.setPc 0xFFE)).pc = 0x1000 ∧ (run 0x0000 (fun s => s.setPc 0xFFE)).status = .halted := by decide

/-- V11. -/
theorem test_fetch_at_4095_faults :
    step (State.reset.setPc 0xFFF) = .next ((State.reset.setPc 0xFFF).takeFault
      { cause := .fetchOutOfBounds, instrAddr := 0xFFF, word := none, info := some 4096 }) := rfl

/-- V12. -/
theorem test_halted_step_changes_nothing :
    step (State.reset.setPc 0x1000) = .next (State.reset.setPc 0x1000) := rfl

/-- V16. -/
theorem test_jp :
    (run 0x1ABC id).pc = 0xABC := by decide

/-- V17. -/
theorem test_call_pushes_the_next_address :
    (run 0x2400 id).stack = [0x202] ∧ (run 0x2400 id).pc = 0x400 := by decide

/-- V20. -/
theorem test_call_on_a_full_stack_faults :
    let t := run 0x2400 (fun s => { s with stack := List.replicate 16 0x300 })
    t.fault = recordAt200 0x2400 .stackOverflow (some 16) ∧ t.sp = 16 ∧ t.pc = 0x202 := by decide

/-- V21, STACK_DEPTH = 17. -/
theorem test_call_with_a_deeper_stack :
    let t := run 0x2400 (fun s => { s with stack := List.replicate 16 0x300, cfg := { s.cfg with stackDepth := 17 } })
    t.sp = 17 ∧ t.stack.getLast? = some 0x202 ∧ t.pc = 0x400 := by decide

/-- V18. -/
theorem test_ret_pops :
    (run 0x00EE (fun s => { s with stack := [0x300, 0x202] })).pc = 0x202 ∧
      (run 0x00EE (fun s => { s with stack := [0x300, 0x202] })).stack = [0x300] := by decide

/-- V19, at 0x200. -/
theorem test_ret_on_an_empty_stack_faults :
    (run 0x00EE id).fault = recordAt200 0x00EE .stackUnderflow none ∧ (run 0x00EE id).pc = 0x202 := by decide

/-- V24. -/
theorem test_jpV0_does_not_wrap :
    (run 0xBFFF (fun s => s.setReg 0 0xFF)).pc = 0x10FE := by decide

/-- V25, V26. -/
theorem test_seImm_skips :
    (run 0x3142 (fun s => s.setReg 1 0x42)).pc = 0x204 ∧ (run 0x3142 (fun s => s.setReg 1 0x41)).pc = 0x202 := by decide

/-- V27, V28. -/
theorem test_sneImm_skips :
    (run 0x4142 (fun s => s.setReg 1 0x41)).pc = 0x204 ∧ (run 0x4142 (fun s => s.setReg 1 0x42)).pc = 0x202 := by decide

/-- V7. -/
theorem test_seReg_ignores_the_low_nibble :
    (run 0x5121 (fun s => (s.setReg 1 7).setReg 2 7)).pc = 0x204 := by decide

/-- V8. -/
theorem test_sneReg_ignores_the_low_nibble :
    (run 0x912F (fun s => (s.setReg 1 7).setReg 2 8)).pc = 0x204 := by decide

/-- V34. -/
theorem test_ldImm :
    (run 0x6A55 id).reg 10 = 0x55 := by decide

/-- V35. -/
theorem test_addImm_wraps_with_no_flag :
    let t := run 0x7AFF (fun s => (s.setReg 10 2).setReg VF 0x77)
    t.reg 10 = 1 ∧ t.reg VF = 0x77 := by decide

/-- V37. -/
theorem test_ldReg :
    (run 0x8120 (fun s => s.setReg 2 0x33)).reg 1 = 0x33 := by decide

/-- V38. -/
theorem test_orReg_keeps_vf :
    let t := run 0x8121 (fun s => ((s.setReg 1 0x0F).setReg 2 0xF0).setReg VF 0x55)
    t.reg 1 = 0xFF ∧ t.reg VF = 0x55 := by decide

/-- V39. -/
theorem test_andReg :
    (run 0x8122 (fun s => (s.setReg 1 0x3C).setReg 2 0x0F)).reg 1 = 0x0C := by decide

/-- V40. -/
theorem test_xorReg :
    (run 0x8123 (fun s => (s.setReg 1 0xFF).setReg 2 0x0F)).reg 1 = 0xF0 := by decide

/-- V42. -/
theorem test_addReg_carries :
    let t := run 0x8124 (fun s => (s.setReg 1 0xFF).setReg 2 1)
    t.reg 1 = 0 ∧ t.reg VF = 1 := by decide

/-- V44, V46. -/
theorem test_addReg_into_vf_loses_the_carry :
    (run 0x8F24 (fun s => (s.setReg VF 0x80).setReg 2 0x80)).reg VF = 0 ∧
      (run 0x8FF4 (fun s => s.setReg VF 0x90)).reg VF = 0x20 := by decide

/-- S2. -/
theorem test_subReg_borrows :
    let t := run 0x8125 (fun s => (s.setReg 1 3).setReg 2 5)
    t.reg 1 = 0xFE ∧ t.reg VF = 0 := by decide

/-- V48, V49, V50. -/
theorem test_subReg_with_vf :
    (run 0x8F35 (fun s => (s.setReg VF 5).setReg 3 3)).reg VF = 0xFE ∧
      (run 0x81F5 (fun s => (s.setReg 1 5).setReg VF 3)).reg 1 = 4 ∧ (run 0x8FF5 (fun s => s.setReg VF 0x42)).reg VF = 0 := by decide

/-- V52. -/
theorem test_subnReg :
    let t := run 0x8127 (fun s => (s.setReg 1 5).setReg 2 3)
    t.reg 1 = 0xFE ∧ t.reg VF = 0 := by decide

/-- V53, V54. -/
theorem test_subnReg_with_vf :
    (run 0x8F27 (fun s => (s.setReg VF 3).setReg 2 5)).reg VF = 4 ∧
      (run 0x81F7 (fun s => (s.setReg 1 3).setReg VF 5)).reg 1 = 0xFE := by decide

/-- S3. -/
theorem test_shr_reads_y :
    let t := run 0x8126 (fun s => s.setReg 2 3)
    t.reg 1 = 1 ∧ t.reg VF = 1 ∧ t.reg 2 = 3 := by decide

/-- V59, V57. -/
theorem test_shr_parameter_x :
    let t := run 0x8126 (fun s => { (s.setReg 1 5).setReg 2 0xFF with cfg := { s.cfg with shrSource := .x } })
    t.reg 1 = 2 ∧ t.reg VF = 1 ∧ (run 0x81F6 (fun s => s.setReg VF 3)).reg 1 = 0 := by decide

/-- V62, V63. -/
theorem test_shl_reads_x :
    let t := run 0x812E (fun s => s.setReg 1 0x81)
    t.reg 1 = 2 ∧ t.reg VF = 1 ∧ (run 0x8F0E (fun s => s.setReg VF 0x81)).reg VF = 2 := by decide

/-- V64. -/
theorem test_shl_parameter_y :
    let t := run 0x812E (fun s => { s.setReg 2 0x81 with cfg := { s.cfg with shlSource := .y } })
    t.reg 1 = 2 ∧ t.reg VF = 1 ∧ t.reg 2 = 0x81 := by decide

/-- V66 with r free. -/
theorem test_rnd_masks_a_free_byte :
    (run 0xC3FF id).reg 3 = Config.randomByte 0 &&& 0xFF := rfl

/-- V68. -/
theorem test_ldI :
    (run 0xA123 id).index = 0x123 := by decide

/-- V70. -/
theorem test_addI_wraps_with_no_flag :
    let t := run 0xF21E (fun s => ((s.setIndex 0xFFFF).setReg 2 2).setReg VF 0x33)
    t.index = 1 ∧ t.reg VF = 0x33 := by decide

/-- V73, V74. -/
theorem test_ldF_uses_the_low_digit :
    (run 0xF229 (fun s => s.setReg 2 0x1A)).index = 0x082 ∧ (run 0xF229 (fun s => s.setReg 2 0x0F)).index = 0x09B := by decide

/-- V78. -/
theorem test_ldB_stores_digits :
    let t := run 0xF233 (fun s => (s.setReg 2 157).setIndex 0xFFD)
    t.readByte 0xFFD = 1 ∧ t.readByte 0xFFE = 5 ∧ t.readByte 0xFFF = 7 ∧ t.fault = none := by decide

/-- V79. -/
theorem test_ldB_past_the_end_faults :
    let t := run 0xF233 (fun s => poke ((s.setReg 2 157).setIndex 0xFFE) 0xFFE 0xAA)
    t.fault = recordAt200 0xF233 .storeOutOfBounds (some 4096) ∧ t.readByte 0xFFE = 0xAA ∧ t.pc = 0x202 := by decide

/-- V87, and V81 with VF = 0x1F alone set. -/
theorem test_stRegs_may_overwrite_the_font :
    let t := run 0xF155 (fun s => ((s.setReg 0 1).setReg 1 2).setIndex 0x050)
    let u := run 0xFF55 (fun s => (s.setReg VF 0x1F).setIndex 0x300)
    t.readByte 0x050 = 1 ∧ t.readByte 0x051 = 2 ∧ t.readByte 0x052 = 0x90 ∧ t.index = 0x050 ∧ u.readByte 0x30F = 0x1F := by
  decide

/-- V83. -/
theorem test_stRegs_past_the_end_faults :
    (run 0xF055 (fun s => s.setIndex 0x1000)).fault = recordAt200 0xF055 .storeOutOfBounds (some 0x1000) := by decide

/-- V84, V85. -/
theorem test_ldRegs_loads :
    let t := run 0xF265 (fun s => poke (poke (s.setIndex 0x300) 0x301 5) 0x302 7)
    let u := run 0xFF65 (fun s => poke (s.setIndex 0x300) 0x30F 0x99)
    t.reg 0 = 0 ∧ t.reg 1 = 5 ∧ t.reg 2 = 7 ∧ t.reg 3 = 0 ∧ t.index = 0x300 ∧ u.reg VF = 0x99 := by decide

/-- V86. -/
theorem test_ldRegs_past_the_end_faults :
    let t := run 0xF165 (fun s => (s.setReg 0 0x55).setIndex 0xFFF)
    t.fault = recordAt200 0xF165 .loadOutOfBounds (some 4096) ∧ t.reg 0 = 0x55 := by decide

/-- V88. -/
theorem test_cls_clears_and_marks_dirty :
    let t := run 0x00E0 (fun s => { (s.setReg VF 0x77) with fb := Framebuffer.setPixel s.fb 63 31 true })
    t.pixel 63 31 = false ∧ t.dirty = true ∧ t.reg VF = 0x77 := by decide

/-- S5. -/
theorem test_drw_wraps :
    let t := run 0xD012 (fun s => poke (poke (((s.setIndex 0x300).setReg 0 63).setReg 1 31) 0x300 0xFF) 0x301 0xFF)
    t.pixel 63 31 = true ∧ t.pixel 6 31 = true ∧ t.pixel 7 31 = false ∧ t.pixel 0 0 = true ∧ t.reg VF = 0 := by decide +kernel

/-- V93. -/
theorem test_drw_collides :
    let t := run 0xD011 (fun s => poke { (s.setIndex 0x300) with fb := Framebuffer.setPixel s.fb 0 0 true } 0x300 0xC0)
    t.pixel 0 0 = false ∧ t.pixel 1 0 = true ∧ t.reg VF = 1 ∧ t.dirty = true := by decide +kernel

/-- V91. -/
theorem test_drw_of_no_rows_reads_nothing :
    let t := run 0xD010 (fun s => (s.setIndex 0xFFFF).setReg VF 0x77)
    t.fault = none ∧ t.reg VF = 0 ∧ t.dirty = true := by decide

/-- V95. -/
theorem test_drw_past_the_end_faults :
    let t := run 0xD013 (fun s => (s.setIndex 0xFFE).setReg VF 0x77)
    t.fault = recordAt200 0xD013 .loadOutOfBounds (some 4096) ∧ t.reg VF = 0x77 ∧ t.dirty = false := by decide

/-- V98. -/
theorem test_drw_reads_vf_before_clearing_it :
    let t := run 0xDF11 (fun s => poke (((s.setIndex 0x300).setReg VF 10).setReg 1 3) 0x300 0x80)
    t.pixel 10 3 = true ∧ t.reg VF = 0 := by decide +kernel

/-- V102. -/
theorem test_ldVxDt :
    (run 0xF307 (fun s => s.setDt 0x3C)).reg 3 = 0x3C := by decide

/-- V103. -/
theorem test_ldDtVx_then_tick :
    let t := run 0xF315 (fun s => s.setReg 3 0x3C)
    t.dt = 0x3C ∧ t.tick.dt = 0x3B := by decide

/-- V104, V105. -/
theorem test_ldStVx_sounds :
    (run 0xF318 (fun s => s.setReg 3 5)).soundOn = true ∧ (run 0xF318 (fun s => s.setSt 9)).soundOn = false := by decide

/-- V109, V110. -/
theorem test_skp :
    (run 0xE59E (fun s => (s.setReg 5 10).setKey 10 true)).pc = 0x204 ∧ (run 0xE59E (fun s => s.setReg 5 10)).pc = 0x202 := by decide

/-- V113. -/
theorem test_skp_past_key_15_faults :
    (run 0xE59E (fun s => s.setReg 5 0x10)).fault = recordAt200 0xE59E .keyIndexOutOfRange (some 0x10) := by decide

/-- V111, V112. -/
theorem test_sknp :
    (run 0xE5A1 (fun s => s.setReg 5 10)).pc = 0x204 ∧ (run 0xE5A1 (fun s => (s.setReg 5 10).setKey 10 true)).pc = 0x202 := by decide

/-- V114. -/
theorem test_ldVxK_takes_the_least_key :
    (run 0xF50A (fun s => (s.setKey 3 true).setKey 7 true)).reg 5 = 3 ∧
      (run 0xF50A (fun s => (s.setKey 3 true).setKey 7 true)).pc = 0x202 := by decide

/-- V116. -/
theorem test_ldVxK_waits :
    (run 0xF50A id).pc = 0x200 ∧ (run 0xF50A id).reg 5 = 0 := by decide

/-- V106. -/
theorem test_tick_stops_at_zero :
    ((State.reset.setSt 1).tick).st = 0 ∧ ((State.reset.setSt 1).tick).dt = 0 := by decide

/-- V119. -/
theorem test_load_keeps_the_rest :
    let t := (State.reset.load (List.replicate 10 0xAA)).load [0x12, 0x00]
    t.readByte 0x200 = 0x12 ∧ t.readByte 0x201 = 0 ∧ t.readByte 0x202 = 0xAA ∧ t.pc = 0x200 := by decide

/-- V117. -/
theorem test_setKey_ignores_16 :
    State.reset.setKey 16 true = State.reset ∧ State.reset.setKey (-1) true = State.reset := ⟨rfl, rfl⟩

/-- V100. -/
theorem test_readFramebuffer_clears_dirty :
    let s := State.reset.drawScreen Framebuffer.blank
    s.readFramebuffer.1.dirty = true ∧ s.readFramebuffer.2.readFramebuffer.1.dirty = false := by decide

/-! ## Witnesses: states and operands that meet the hypotheses of each statement, each clause at its boundary -/

/-- The reset machine with pc already two past an instruction at 0x200. -/
def executing : State := State.reset.setPc 0x202

/-- The reset machine with a fault of the instruction at 0x200. -/
def faulted : State := executing.takeFault
  { cause := .keyIndexOutOfRange, instrAddr := 0x200, word := some 0xE59E, info := some 16 }

/-- The reset machine with n return addresses on its stack. -/
def stacked (n : Nat) : State := { executing with stack := List.replicate n 0x300 }

theorem witness_decodeOfEncode :
    Instr.wf (.nop0 0x0E1) ∧ Instr.wf (.nop8 1 2 0x8) ∧ Instr.wf (.nopE 15 0xA0) ∧ Instr.wf (.nopF 15 0x66) ∧
      Instr.wf (.drw 15 15 0xF) := by decide

theorem witness_instructionRowsNeverOverlap :
    (⟨"8xyE", 0x800E, 0xF00F⟩ : OpcodeRow) ∈ instructionRows ∧ OpcodeRow.fits ⟨"8xyE", 0x800E, 0xF00F⟩ 0x8FFE := by
  decide

theorem witness_stepRunsTheDecodedInstruction :
    faulted.status = .fatal ∧ (State.reset.setPc 4096).status = .halted ∧
      (State.reset.setPc 4095).status = .running ∧ (State.reset.setPc 4095).pc.toNat = 4095 ∧
      (State.reset.setPc 4094).status = .running ∧ (State.reset.setPc 4094).pc.toNat < 4095 := by decide

theorem witness_reservedWordsAreNoOps :
    State.reset.status = .running ∧ State.reset.fetchWord = some 0 ∧ (decodeWord 0).isReserved = true := by decide

theorem witness_returnPopsIntoPc :
    executing.pc = 0x200 + 2 ∧ executing.stack = [] ∧ (stacked 1).pc = 0x200 + 2 ∧ (stacked 1).stack = [] ++ [0x300] := by
  decide

theorem witness_callPushesThenJumps :
    (stacked 15).pc = 0x200 + 2 ∧ (stacked 15).sp ≠ (stacked 15).cfg.stackDepth ∧
      (stacked 16).pc = 0x200 + 2 ∧ (stacked 16).sp = (stacked 16).cfg.stackDepth := by decide

theorem witness_skips_both_ways :
    let s := executing.setReg 1 7
    s.reg 1 = 7 ∧ s.reg 1 ≠ 8 ∧ s.reg 2 = s.reg 3 ∧ s.reg 1 ≠ s.reg 2 := by decide

/-- For the flag statements of 8xy4, 8xy5, 8xy7, 8xy6 and 8xyE: a destination beside VF, and VF itself. -/
theorem witness_flagDestinations : (14 : Reg) ≠ VF ∧ (15 : Reg) = VF := by decide

theorem witness_shiftSources :
    let s := { executing with cfg := { Config.default with shrSource := .x, shlSource := .y } }
    executing.cfg.shrSource = .y ∧ executing.cfg.shlSource = .x ∧ s.cfg.shrSource = .x ∧ s.cfg.shlSource = .y := by
  decide

theorem witness_bcdStoresThreeDigits :
    executing.pc = 0x200 + 2 ∧ Memory.wf executing.cfg.font executing.mem ∧
      (executing.setIndex 4093).index.toNat + 2 ≤ 4095 ∧ (executing.setIndex 4094).index.toNat + 2 > 4095 := by decide

/-- For Fx55 and Fx65 with x = 15, and the registers up to x and past it. -/
theorem witness_registerBlocks :
    executing.pc = 0x200 + 2 ∧ Memory.wf executing.cfg.font executing.mem ∧
      (executing.setIndex 4080).index.toNat + (15 : Reg) ≤ 4095 ∧
      (executing.setIndex 4081).index.toNat + (15 : Reg) > 4095 ∧ (15 : Reg) ≤ 15 ∧ (3 : Reg) < 4 := by decide

theorem witness_storedBytesAreFetched :
    Memory.wf executing.cfg.font executing.mem ∧ (executing.setIndex 4080).index.toNat + (15 : Reg) ≤ 4095 ∧
      (15 : Reg).val = (14 : Reg).val + 1 ∧ (15 : Reg) ≤ 15 := by decide

theorem witness_canonicalMemories :
    Memory.wf Config.conventionalFont [(0x050, 0), (0x200, 1)] ∧
      ∀ a, Memory.read Config.conventionalFont [(0x200, 1)] a = Memory.read Config.conventionalFont [(0x200, 1)] a :=
  ⟨by decide, fun _ => rfl⟩

theorem witness_drawRanges :
    executing.pc = 0x200 + 2 ∧ (0 : Nibble).toNat = 0 ∧
      (executing.setIndex 4081).index.toNat + (15 : Nibble).toNat - 1 ≤ 4095 ∧ (15 : Nibble).toNat > 0 ∧
      (executing.setIndex 4082).index.toNat + (15 : Nibble).toNat - 1 > 4095 := by decide

/-- The glyph of 0, F0 90 90 90 F0 at 0x050, drawn at (60, 31): its bit at row 0, column 3 lands on (63, 31), and its
bit at row 1, column 0 lands on (60, 0); no bit lands on (0, 31). -/
theorem witness_spriteHits :
    let row : Nat → Byte := fun r => (executing.setIndex 0x050).readByte ((executing.setIndex 0x050).dataAddr + r)
    SpriteHits 60 31 5 row 63 31 ∧ SpriteHits 60 31 5 row 60 0 ∧ ¬SpriteHits 60 31 1 row 0 31 := by
  refine ⟨⟨0, 3, by decide⟩, ⟨1, 0, by decide⟩, ?_⟩
  rintro ⟨r, c, hr, hc, hb, hx, -⟩
  obtain rfl : r = 0 := by omega
  obtain rfl : c = 4 := by simp at hx; omega
  revert hb
  decide

/-- For the two statements about drawing twice: the two draws of a one-row sprite do answer next states. -/
theorem witness_drawingTwice :
    let s := poke (executing.setIndex 0x300) 0x300 0x80
    (0 : Reg) ≠ VF ∧ (1 : Reg) ≠ VF ∧ s.fault = none ∧ s.index.toNat + (1 : Nibble).toNat - 1 ≤ 4095 ∧
      ∃ t u, exec (.drw 0 1 1) s = .next t ∧ exec (.drw 0 1 1) t = .next u :=
  ⟨by decide, by decide, rfl, by decide, _, _, rfl, rfl⟩

theorem witness_keySkips :
    let s := ((executing.setReg 5 15).setReg 6 16).setKey 15 true
    s.pc = 0x200 + 2 ∧ (s.reg 5).toNat = (15 : Reg) ∧ s.key[(15 : Reg)] = true ∧
      (s.reg 0).toNat = (0 : Reg) ∧ s.key[(0 : Reg)] = false ∧ (s.reg 6).toNat > 15 := by decide

theorem witness_keyWait :
    let s := executing.setKey 15 true
    s.pc = 0x200 + 2 ∧ s.key[(15 : Reg)] = true ∧ (∀ j : Reg, j < 15 → s.key[j] = false) ∧
      (∀ k : Reg, executing.key[k] = false) := by decide

theorem witness_waitingForAKey :
    let s := State.reset.withFetchWord 16 0xF50A
    s.status = .running ∧ s.fetchWord = some (formatB 0xF 5 0x0A) ∧ (∀ k : Reg, s.key[k] = false) := by decide

theorem witness_callThenReturn : (stacked 15).sp ≠ (stacked 15).cfg.stackDepth := by decide

/-- For the three statements about what an instruction may change: one that is none of those named, and its result. -/
theorem witness_instructionChangesNothingElse :
    (∃ t, exec (.ldImm 3 7) executing = .next t) ∧ (4 : Reg) ≠ VF ∧ (4 : Reg) ∉ destinationRegs (.ldImm 3 7) ∧
      writesFlag (.ldImm 3 7) = false ∧ VF ∉ destinationRegs (.ldImm 3 7) ∧ Instr.ldImm 3 7 ≠ .cls ∧
      (∀ x y n, Instr.ldImm 3 7 ≠ .drw x y n) ∧ (∀ nnn, Instr.ldImm 3 7 ≠ .ldI nnn) ∧
      (∀ x kk, Instr.ldImm 3 7 ≠ .rnd x kk) :=
  ⟨⟨_, rfl⟩, by decide, by decide, rfl, by decide, by decide, nofun, nofun, nofun⟩

theorem witness_stepAnswers : ∃ t, step State.reset = .next t ∧ t.pc = 0x202 := ⟨_, rfl, by decide⟩

/-- Each condition of R101's table, on a running machine: the fetch, and each of the five of an executed word. -/
theorem witness_faultConditions :
    (State.reset.setPc 4095).status = .running ∧ (State.reset.setPc 4095).pc.toNat = 4095 ∧
      faultCondition .ret executing = some (.stackUnderflow, none) ∧
      faultCondition (.call 0x300) (stacked 16) = some (.stackOverflow, some 16) ∧
      faultCondition (.stRegs 15) (executing.setIndex 4081) = some (.storeOutOfBounds, some 4096) ∧
      faultCondition (.drw 0 0 1) (executing.setIndex 5000) = some (.loadOutOfBounds, some 5000) ∧
      faultCondition (.skp 5) (executing.setReg 5 16) = some (.keyIndexOutOfRange, some 16) := by decide

/-- No condition of the table holds of the same instructions one short of each boundary. -/
theorem witness_noFaultCondition :
    faultCondition .ret (stacked 1) = none ∧ faultCondition (.call 0x300) (stacked 15) = none ∧
      faultCondition (.stRegs 15) (executing.setIndex 4080) = none ∧
      faultCondition (.drw 0 0 0) (executing.setIndex 5000) = none ∧
      faultCondition (.skp 5) (executing.setReg 5 15) = none := by decide

theorem witness_fatalMachine :
    faulted.fault ≠ none ∧ faulted.status = .fatal ∧ ∃ t, Transition faulted t :=
  ⟨by decide, by decide, _, .setKey faulted 3 true⟩

theorem witness_haltedMachine :
    let s := State.reset.setPc 4096
    s.fault = none ∧ 4096 ≤ s.pc.toNat ∧ 4096 ≤ (State.reset.setPc 0x10FE).pc.toNat ∧
      Memory.wf s.cfg.font s.mem ∧ 0x201 ∉ (List.range (min [(7 : Byte)].length 3584)).map (0x200 + ·) := by decide

theorem witness_tick : (State.reset.setDt 255).fault = none ∧ (State.reset.setDt 255).dt.toNat - 1 = 254 ∧
    faulted.fault ≠ none := by decide

/-- Byte 3583 is the last that load copies; byte 3584 is dropped. -/
theorem witness_load :
    Memory.wf State.reset.cfg.font State.reset.mem ∧ State.reset.fault = none ∧ 3583 < 3584 ∧
      (∃ bytes : List Byte, bytes.length = 3585 ∧ bytes[3583]? = some 7) ∧ faulted.fault ≠ none :=
  ⟨by decide, rfl, by decide, ⟨List.replicate 3585 7, List.length_replicate, by rw [List.getElem?_replicate, if_pos (by decide)]⟩, by decide⟩

theorem witness_setKeyBounds : (0 : Int) ≤ 0 ∧ (15 : Int) ≤ 15 ∧ (-1 : Int) < 0 ∧ (15 : Int) < 16 := by decide

theorem witness_constructionAddresses : 79 < 80 ∧ 0x04F < 0x050 ∧ 0x09F < 0x0A0 ∧ 0x050 + 79 = 0x09F := by decide

theorem witness_constructionParameters : 16 ≤ Config.default.stackDepth ∧ Config.Ok Config.default := by decide

/-- A running machine meets the invariant, here one with a full stack. -/
theorem witness_invariant : State.Inv (stacked 16) := by
  have hf : (stacked 16).fault = none := rfl
  refine ⟨by decide, by decide, by decide, fun w hw => ?_, by decide, fun r h => ?_⟩
  · rw [List.eq_of_mem_replicate hw]
    decide
  · rw [hf] at h
    cases h

theorem witness_consistentFaultRecord :
    FaultRecord.Consistent ⟨.keyIndexOutOfRange, 0x200, some 0xE59E, some 16⟩ 0x202 :=
  ⟨by decide, rfl, ⟨16, rfl, by decide, by decide⟩, rfl⟩

theorem witness_transition : ∃ t, Transition (stacked 16) t ∧ step (stacked 16) = .next t := ⟨_, .step rfl, rfl⟩

theorem witness_reachable :
    Reachable State.reset ∧ State.reset.status = .running ∧ ∃ t, step State.reset = .next t :=
  ⟨.constructed Config.default (by decide), by decide, _, rfl⟩

end Sys2Proof.Machine
end

section
/-! Construction (70_reset_and_hazards.md R124): its fields, what its memory reads as, and the base case of the
machine's invariant. -/

namespace Sys2Proof.Machine

variable (cfg : Config)

/-! ## The fields of a constructed machine -/

@[simp] theorem construct_pc : (State.construct cfg).pc = 0x200 := rfl
@[simp] theorem construct_stack : (State.construct cfg).stack = [] := rfl
@[simp] theorem construct_sp : (State.construct cfg).sp = 0 := rfl
@[simp] theorem construct_fault : (State.construct cfg).fault = none := rfl

/-! ## Memory after construction -/

/-- Nothing has been stored yet, so every address reads as unlisted. -/
theorem construct_readByte (a : Nat) : (State.construct cfg).readByte a = unlistedByte cfg.font a := rfl

/-- Byte i of the font region holds byte i of FONT_DATA. -/
theorem construct_readByte_font {i : Nat} (h : i < 80) : (State.construct cfg).readByte (0x050 + i) = cfg.font[i] := by
  have hRegion : fontBase ≤ 0x050 + i ∧ 0x050 + i < fontBase + fontBytes := by
    simp only [fontBase, fontBytes]; omega
  rw [construct_readByte, unlistedByte, dif_pos hRegion]
  simp only [fontBase, Nat.add_sub_cancel_left]

/-- The five bytes at digit d's glyph address are the bytes of FONT_DATA from offset 5·d on (00_scope.md R8). -/
theorem construct_loadBytes_glyph (d : Reg) :
    (State.construct cfg).loadBytes (0x050 + 5 * d.val) 5 =
      some (List.ofFn fun k : Fin 5 => cfg.font[5 * d.val + k.val]) := by
  rw [loadBytes_inside _ (.inr (by omega)), Option.some_inj, List.ofFn_eq_map, ← List.map_coe_finRange_eq_range,
    List.map_map]
  refine List.map_congr_left fun k _ => ?_
  rw [Function.comp_apply, Nat.add_assoc, construct_readByte_font]

/-! ## The parameters of the reset machine -/

/-- Settles O50: the parameters are `Config.default`'s, and the glyphs of the digits 0 and F are read through the law
of the font region. -/
theorem resetTakesTheDefaultParameters : Obligations.ResetTakesTheDefaultParameters := by
  have hGlyph0 := construct_loadBytes_glyph Config.default 0
  have hGlyphF := construct_loadBytes_glyph Config.default 15
  exact ⟨rfl, rfl, rfl, rfl, hGlyph0.trans (by decide), hGlyphF.trans (by decide)⟩

/-! ## The invariant's base case -/

/-- A machine constructed with acceptable parameters meets the invariant: its memory lists no cell, its stack is
empty, and it holds no fault record. -/
theorem construct_inv {cfg : Config} (h : cfg.Ok) : (State.construct cfg).Inv where
  cfgOk := h
  memWf := Memory.wf_nil
  stackBounded := by simp
  stackEntries := by simp
  pcBounded := by simp
  faultConsistent := by simp

/-- Settles O51: the base case of the invariant, of which the reset machine is an instance. -/
theorem constructionMeetsTheInvariant : Obligations.ConstructionMeetsTheInvariant :=
  ⟨fun _ h => construct_inv h, construct_inv (cfg := Config.default) (Nat.le_refl 16)⟩

end Sys2Proof.Machine
end

section
/-! The canonical form determines memory (log 7), and the step in the words of R47 and R48. -/

namespace Sys2Proof.Machine

variable {font : Font}

/-! ## Canonical memories -/

/-- A canonical memory that reads as unlisted at every address lists nothing. -/
theorem Memory.eq_nil_of_read_unlisted {m : Memory} (hm : Memory.wf font m)
    (h : ∀ a, Memory.read font m a = unlistedByte font a) : m = [] := by
  cases m with
  | nil => rfl
  | cons c m => exact absurd (h c.1) (Memory.read_head hm)

/-- Of two canonical memories that read alike, the second's head is not below the first's. -/
theorem Memory.head_le_of_read_eq {c d : Host.Cell} {m n : Memory} (hm : Memory.wf font (c :: m))
    (hn : Memory.wf font (d :: n)) (h : ∀ a, Memory.read font (c :: m) a = Memory.read font (d :: n) a) :
    c.1 ≤ d.1 := by
  by_contra hlt
  refine Memory.read_head hn ?_
  rw [← h, Memory.read_below]
  intro e he
  obtain rfl | he := List.mem_cons.1 he
  · omega
  · have := (Memory.wf_cons.1 hm).1 e he
    omega

/-- Canonical memories that read alike at every address are equal: their heads list the same address, for each is the
lowest address that does not read as unlisted. -/
theorem Memory.eq_of_read_eq {m : Memory} : ∀ {n : Memory}, Memory.wf font m → Memory.wf font n →
    (∀ a, Memory.read font m a = Memory.read font n a) → m = n := by
  induction m with
  | nil => exact fun _ hn h => (Memory.eq_nil_of_read_unlisted hn fun a => (h a).symm).symm
  | cons c m ih =>
    intro n hm hn h
    cases n with
    | nil => exact Memory.eq_nil_of_read_unlisted hm h
    | cons d n =>
      have hAddr : c.1 = d.1 := Nat.le_antisymm (Memory.head_le_of_read_eq hm hn h)
        (Memory.head_le_of_read_eq hn hm fun a => (h a).symm)
      have hByte : c.2 = d.2 := by simpa [Memory.read, hAddr] using h c.1
      have hTail : m = n := ih (Memory.wf_cons.1 hm).2.2 (Memory.wf_cons.1 hn).2.2 fun a => by
        rw [Memory.read_tail hm, Memory.read_tail hn, h, hAddr]
      rw [Prod.ext hAddr hByte, hTail]

/-- Settles O27, by induction on the first memory. -/
theorem canonicalMemoriesReadingAlikeAreEqual : Obligations.CanonicalMemoriesReadingAlikeAreEqual :=
  fun _ _ _ hm hn h => Memory.eq_of_read_eq hm hn h

/-! ## The step -/

/-- Settles O6: the run status by its three equivalences, the step by its three cases. -/
theorem stepRunsTheDecodedInstruction : Obligations.StepRunsTheDecodedInstruction := by
  intro s
  refine ⟨status_fatal s, status_halted s, status_running s, step_stopped s, fun h hp => ?_, fun h hp => ?_⟩
  · have hpc : s.pc = 4095 := BitVec.eq_of_toNat_eq hp
    have hstep := step_fetch_fault s h hp
    rwa [hpc] at hstep
  · exact step_running s h (fetchWord_inside s hp)

end Sys2Proof.Machine
end

section
/-! What an instruction can answer: the record of a condition of R101's table on a state that is otherwise as it was,
or, where no condition holds, a change of the registers and parts that the instruction may write. -/

namespace Sys2Proof.Machine

/-! ## What an instruction may write -/

/-- The registers an instruction may write, VF as a flag included (10_state.md R17, R18). -/
def writtenRegs (i : Instr) : List Reg := destinationRegs i ++ if writesFlag i then [VF] else []

/-- The parts an instruction may write where it raises no fault. -/
def writtenParts (i : Instr) : List Part :=
  match i with
  | .cls | .drw _ _ _ => [.fb, .dirty]
  | .ret | .call _ => [.stack, .pc]
  | .jp _ | .jpV0 _ | .seImm _ _ | .sneImm _ _ | .seReg _ _ _ | .sneReg _ _ _ | .skp _ | .sknp _ | .ldVxK _ => [.pc]
  | .ldI _ | .addI _ | .ldF _ => [.index]
  | .rnd _ _ => [.draws]
  | .ldDtVx _ => [.dt]
  | .ldStVx _ => [.st]
  | .ldImm _ _ | .addImm _ _ | .ldReg _ _ | .orReg _ _ | .andReg _ _ | .xorReg _ _ | .addReg _ _ | .subReg _ _
  | .shr _ _ | .subnReg _ _ | .shl _ _ | .ldVxDt _ | .ldB _ | .stRegs _ | .ldRegs _ | .nop0 _ | .nop8 _ _ _
  | .nopE _ _ | .nopF _ _ => []

theorem not_mem_writtenRegs {i : Instr} {r : Reg} (hd : r ∉ destinationRegs i) (hf : writesFlag i = true → r ≠ VF) :
    r ∉ writtenRegs i := by
  unfold writtenRegs
  split
  case isTrue h => simpa [hd] using hf h
  case isFalse => simpa using hd

/-- Fx65 leaves every register above x as it is. -/
theorem lt_of_not_mem_writtenRegs_ldRegs {x r : Reg} (h : r ∉ writtenRegs (.ldRegs x)) : x < r := by
  simpa [writtenRegs, destinationRegs, writesFlag] using h

section
variable {i : Instr}

theorem index_mem_writtenParts :
    .index ∈ writtenParts i ↔ (∃ nnn, i = .ldI nnn) ∨ (∃ x, i = .addI x) ∨ ∃ x, i = .ldF x := by
  cases i <;> simp [writtenParts]

theorem stack_mem_writtenParts : .stack ∈ writtenParts i ↔ i = .ret ∨ ∃ nnn, i = .call nnn := by
  cases i <;> simp [writtenParts]

theorem dt_mem_writtenParts : .dt ∈ writtenParts i ↔ ∃ x, i = .ldDtVx x := by
  cases i <;> simp [writtenParts]

theorem st_mem_writtenParts : .st ∈ writtenParts i ↔ ∃ x, i = .ldStVx x := by
  cases i <;> simp [writtenParts]

theorem dirty_mem_writtenParts : .dirty ∈ writtenParts i ↔ i = .cls ∨ ∃ x y n, i = .drw x y n := by
  cases i <;> simp [writtenParts]

theorem key_not_mem_writtenParts : .key ∉ writtenParts i := by
  cases i <;> simp [writtenParts]

theorem fault_not_mem_writtenParts : .fault ∉ writtenParts i := by
  cases i <;> simp [writtenParts]

theorem draws_mem_writtenParts : .draws ∈ writtenParts i ↔ ∃ x kk, i = .rnd x kk := by
  cases i <;> simp [writtenParts]

end

/-! ## Frames of the updates of the stack and of the draw count -/

theorem UnchangedBut.setStack (s : State) (l : List Word) : UnchangedBut s { s with stack := l } [] [.stack] [] :=
  { UnchangedBut.refl s [] [.stack] [] with stack_same := fun h => absurd (List.mem_singleton.2 rfl) h }

theorem UnchangedBut.countDraw (s : State) : UnchangedBut s s.countDraw [] [.draws] [] :=
  { UnchangedBut.refl s [] [.draws] [] with draws_same := fun h => absurd (List.mem_singleton.2 rfl) h }

/-! ## The inversion of `exec` -/

/-- What the execution of i in s can answer. Memory stands apart from the frame, for a store's frame by address needs
canonical memory (`UnchangedBut.writeBytes`). -/
inductive Answers (i : Instr) (s : State) : State → Prop where
  /-- A condition of R101's table holds: R102's record and nothing else. -/
  | faults {c : FaultCause} {f : Option Nat} (h : faultCondition i s = some (c, f)) :
      Answers i s (s.takeFault { cause := c, instrAddr := s.pc - 2, word := some (encode i), info := f })
  /-- No condition holds: a change within the instruction's frame. -/
  | completes {t : State} (h : faultCondition i s = none)
      (frame : UnchangedBut { s with mem := t.mem } t (writtenRegs i) (writtenParts i) [])
      (mem_same : (∀ x, i ≠ .ldB x) → (∀ x, i ≠ .stRegs x) → t.mem = s.mem) : Answers i s t

theorem Answers.keepsMem {i : Instr} {s t : State} (h : faultCondition i s = none)
    (frame : UnchangedBut s t (writtenRegs i) (writtenParts i) []) (hm : t.mem = s.mem) : Answers i s t :=
  .completes h (by rwa [hm]) fun _ _ => hm

theorem exec_answers {i : Instr} {s t : State} (h : exec i s = .next t) : Answers i s t := by
  cases i with
  | ret =>
    obtain ⟨rest, w, hs, rfl⟩ | ⟨hs, rfl⟩ := execRet_eq_next h
    · exact .keepsMem (if_neg (by simp [State.sp, hs])) ((UnchangedBut.setStack s rest).trans (.setPc _ w)) rfl
    · exact .faults (if_pos (by simp [State.sp, hs]))
  | call n =>
    obtain ⟨k, rfl⟩ | ⟨k, rfl⟩ := execCall_eq_next h
    · exact .keepsMem (if_neg k) ((UnchangedBut.setStack s _).trans (.setPc _ _)) rfl
    · exact .faults (if_pos k)
  | drw x y n =>
    obtain ⟨k, f, fb, rfl⟩ | ⟨k, rfl⟩ := execDrw_eq_next h
    · exact .keepsMem (if_neg k) ((UnchangedBut.setReg s VF f).trans (.drawScreen _ fb)) rfl
    · exact .faults (if_pos k)
  | ldB x =>
    obtain ⟨k, rfl⟩ | ⟨k, rfl⟩ := execLdB_eq_next h
    · exact .completes (if_neg (Nat.not_le.2 k)) (.refl _ _ _ _) fun hx => absurd rfl (hx x)
    · exact .faults (if_pos k)
  | stRegs x =>
    obtain ⟨k, rfl⟩ | ⟨k, rfl⟩ := execStRegs_eq_next h
    · exact .completes (if_neg (Nat.not_le.2 k)) (.refl _ _ _ _) fun _ hx => absurd rfl (hx x)
    · exact .faults (if_pos k)
  | ldRegs x =>
    obtain ⟨k, rfl⟩ | ⟨k, rfl⟩ := execLdRegs_eq_next h
    · have hlen : ∀ r : Reg, r ∉ writtenRegs (.ldRegs x) →
          ((List.range (x + 1)).map fun k => s.readByte (s.dataAddr + k)).length ≤ r :=
        fun r hr => by simpa using lt_of_not_mem_writtenRegs_ldRegs hr
      exact .keepsMem (if_neg (Nat.not_le.2 k)) (UnchangedBut.setRegs s _ _ hlen) (setRegs_mem s _)
    · exact .faults (if_pos k)
  | skp x =>
    obtain ⟨k, c, rfl⟩ | ⟨k, rfl⟩ := execSkp_eq_next h
    · exact .keepsMem (if_neg k) (.skipIf s c) (skipIf_mem s c)
    · exact .faults (if_pos k)
  | sknp x =>
    obtain ⟨k, c, rfl⟩ | ⟨k, rfl⟩ := execSknp_eq_next h
    · exact .keepsMem (if_neg k) (.skipIf s c) (skipIf_mem s c)
    · exact .faults (if_pos k)
  | ldVxK x =>
    obtain ⟨k, -, rfl⟩ | ⟨-, rfl⟩ := execLdVxK_eq_next h
    · have hReg : [x] ⊆ writtenRegs (.ldVxK x) := by simp [writtenRegs, destinationRegs]
      exact .keepsMem rfl ((UnchangedBut.setReg s x _).widen hReg (by simp) (by simp)) rfl
    · exact .keepsMem rfl ((UnchangedBut.setPc s _).widen (by simp) (by simp [writtenParts]) (by simp)) rfl
  | cls =>
    obtain rfl := Host.Outcome.next.inj h
    exact .keepsMem rfl (.drawScreen s _) rfl
  | jp | jpV0 =>
    obtain rfl := Host.Outcome.next.inj h
    exact .keepsMem rfl (.setPc s _) rfl
  | seImm | sneImm | seReg | sneReg =>
    obtain rfl := Host.Outcome.next.inj h
    exact .keepsMem rfl (.skipIf s _) (skipIf_mem s _)
  | ldImm | addImm | ldReg | orReg | andReg | xorReg | ldVxDt =>
    obtain rfl := Host.Outcome.next.inj h
    exact .keepsMem rfl (.setReg s _ _) rfl
  | addReg | subReg | shr | subnReg | shl =>
    obtain rfl := Host.Outcome.next.inj h
    exact .keepsMem rfl (.flagThenReg s _ _ _) rfl
  | ldI | addI | ldF =>
    obtain rfl := Host.Outcome.next.inj h
    exact .keepsMem rfl (.setIndex s _) rfl
  | rnd x kk =>
    obtain rfl := Host.Outcome.next.inj h
    exact .keepsMem rfl ((UnchangedBut.setReg s x _).trans (.countDraw _)) rfl
  | ldDtVx =>
    obtain rfl := Host.Outcome.next.inj h
    exact .keepsMem rfl (.setDt s _) rfl
  | ldStVx =>
    obtain rfl := Host.Outcome.next.inj h
    exact .keepsMem rfl (.setSt s _) rfl
  | nop0 | nop8 | nopE | nopF =>
    obtain rfl := Host.Outcome.next.inj h
    exact .keepsMem rfl (.refl s _ _ _) rfl

/-! ## The frame of every execution, faulting or not -/

section
variable {i : Instr} {s t : State} (h : exec i s = .next t)
include h

theorem exec_frame : UnchangedBut { s with mem := t.mem } t (writtenRegs i) (.fault :: writtenParts i) [] := by
  obtain ⟨-⟩ | ⟨-, frame, -⟩ := exec_answers h
  · exact (UnchangedBut.takeFault s _).widen (by simp) (by simp) (by simp)
  · exact frame.widen (List.Subset.refl _) (List.subset_cons_self _ _) (List.Subset.refl _)

theorem exec_mem_same (hB : ∀ x, i ≠ .ldB x) (hR : ∀ x, i ≠ .stRegs x) : t.mem = s.mem := by
  obtain ⟨-⟩ | ⟨-, -, mem_same⟩ := exec_answers h
  · rfl
  · exact mem_same hB hR

theorem exec_reg_same {r : Reg} (hd : r ∉ destinationRegs i) (hf : writesFlag i = true → r ≠ VF) :
    t.reg r = s.reg r :=
  (exec_frame h).regs_same r (not_mem_writtenRegs hd hf)

theorem exec_cfg_same : t.cfg = s.cfg := (exec_frame h).cfg_same

theorem exec_stack_same (hr : i ≠ .ret) (hc : ∀ nnn, i ≠ .call nnn) : t.stack = s.stack :=
  (exec_frame h).stack_same (by simp [stack_mem_writtenParts, hr, hc])

theorem exec_pc_same (hp : .pc ∉ writtenParts i) : t.pc = s.pc :=
  (exec_frame h).pc_same (by simpa using hp)

end

/-- Settles O38, from the register part of the frame. -/
theorem onlyFlagInstructionsWriteVfUnnamed : Obligations.OnlyFlagInstructionsWriteVfUnnamed :=
  fun _ _ _ h => ⟨fun _ hr hd => exec_reg_same h hd fun _ => hr,
    fun hf hd => exec_reg_same h hd fun hw => absurd (hf.symm.trans hw) Bool.false_ne_true⟩

/-- Settles O39, from the frame's other parts and from which instruction writes each. -/
theorem eachPartChangesOnlyThroughItsInstructions : Obligations.EachPartChangesOnlyThroughItsInstructions := by
  intro i s t h
  have frame := exec_frame h
  refine ⟨fun hA hE hF => frame.index_same ?_, exec_stack_same h, fun hT => frame.dt_same ?_,
    fun hS => frame.st_same ?_, fun hC hD => frame.dirty_same ?_, exec_mem_same h, frame.key_same ?_,
    exec_cfg_same h, fun hR => frame.draws_same ?_⟩
  · simp [index_mem_writtenParts, hA, hE, hF]
  · simp [dt_mem_writtenParts, hT]
  · simp [st_mem_writtenParts, hS]
  · simp [dirty_mem_writtenParts, hC, hD]
  · simp [key_not_mem_writtenParts]
  · simp [draws_mem_writtenParts, hR]

end Sys2Proof.Machine
end

section
/-! DIRTY and the sound timer are outputs only (10_state.md R26, R28, R34): two machines that differ in nothing else
are kept so by every step. -/

namespace Sys2Proof.Machine

/-- s with another DIRTY and another ST. -/
def State.withOutputs (s : State) (d : Bool) (b : Byte) : State := { s with dirty := d, st := b }

/-- Where o answers a next state, p answers the same state but for DIRTY and ST. -/
def SameButOutputs (o p : Out) : Prop := ∀ t, o = .next t → ∃ d b, p = .next (t.withOutputs d b)

theorem SameButOutputs.next (t : State) (d : Bool) (b : Byte) :
    SameButOutputs (.next t) (.next (t.withOutputs d b)) := by
  intro u h
  obtain rfl := Host.Outcome.next.inj h
  exact ⟨d, b, rfl⟩

variable (s : State) (d : Bool) (b : Byte)

/-! ## What an instruction reads is the same on both machines -/

@[simp] theorem withOutputs_reg (r : Reg) : (s.withOutputs d b).reg r = s.reg r := rfl
@[simp] theorem withOutputs_key : (s.withOutputs d b).key = s.key := rfl
@[simp] theorem withOutputs_firstKey : (s.withOutputs d b).firstKey = s.firstKey := rfl
@[simp] theorem withOutputs_dataAddr : (s.withOutputs d b).dataAddr = s.dataAddr := rfl
@[simp] theorem withOutputs_regsUpTo (x : Reg) : (s.withOutputs d b).regsUpTo x = s.regsUpTo x := rfl
@[simp] theorem withOutputs_loadBytes (a n : Nat) : (s.withOutputs d b).loadBytes a n = s.loadBytes a n := rfl

@[simp] theorem withOutputs_storeBytes (a : Nat) (bs : List Byte) :
    (s.withOutputs d b).storeBytes a bs = (s.storeBytes a bs).map (·.withOutputs d b) := by
  by_cases h : bs.length = 0 ∨ a + bs.length ≤ 4096
  · rw [storeBytes_inside s h, storeBytes_inside (s.withOutputs d b) h]; rfl
  · rw [storeBytes_outside s h, storeBytes_outside (s.withOutputs d b) h]; rfl

/-! ## Each branching meaning takes the same branch on both machines -/

theorem raise_sameButOutputs (i : Instr) (c : FaultCause) (f : Option Nat) :
    SameButOutputs (s.raise i c f) ((s.withOutputs d b).raise i c f) := .next _ d b

theorem skipIf_sameButOutputs (c : Bool) :
    SameButOutputs (.next (s.skipIf c)) (.next ((s.withOutputs d b).skipIf c)) := by
  cases c with
  | true => exact .next _ d b
  | false => exact .next _ d b

theorem execRet_sameButOutputs : SameButOutputs (execRet s) (execRet (s.withOutputs d b)) := by
  unfold execRet
  obtain ⟨rest, w, hs, hp⟩ | ⟨hs, hp⟩ := pop_cases s
  · rw [hp, pop_append (s.withOutputs d b) hs]
    exact .next _ d b
  · rw [hp, pop_empty (s.withOutputs d b) hs]
    exact raise_sameButOutputs s d b _ _ _

theorem execCall_sameButOutputs (n : Addr12) :
    SameButOutputs (execCall n s) (execCall n (s.withOutputs d b)) := by
  unfold execCall
  by_cases h : s.sp = s.cfg.stackDepth
  · rw [if_pos h, if_pos (show (s.withOutputs d b).sp = (s.withOutputs d b).cfg.stackDepth from h)]
    exact raise_sameButOutputs s d b _ _ _
  · rw [if_neg h, if_neg (show (s.withOutputs d b).sp ≠ (s.withOutputs d b).cfg.stackDepth from h)]
    exact .next _ d b

theorem execDrw_sameButOutputs (x y : Reg) (n : Nibble) :
    SameButOutputs (execDrw x y n s) (execDrw x y n (s.withOutputs d b)) := by
  simp only [execDrw, withOutputs_loadBytes, withOutputs_dataAddr]
  cases s.loadBytes s.dataAddr (countOf n) with
  | some bs => exact .next _ true b
  | none => exact raise_sameButOutputs s d b _ _ _

theorem execLdB_sameButOutputs (x : Reg) : SameButOutputs (execLdB x s) (execLdB x (s.withOutputs d b)) := by
  simp only [execLdB, withOutputs_storeBytes, withOutputs_dataAddr, withOutputs_reg]
  cases s.storeBytes s.dataAddr (bcdDigits (s.reg x)) with
  | some u => exact .next u d b
  | none => exact raise_sameButOutputs s d b _ _ _

theorem execStRegs_sameButOutputs (x : Reg) :
    SameButOutputs (execStRegs x s) (execStRegs x (s.withOutputs d b)) := by
  simp only [execStRegs, withOutputs_storeBytes, withOutputs_dataAddr, withOutputs_regsUpTo]
  cases s.storeBytes s.dataAddr (s.regsUpTo x) with
  | some u => exact .next u d b
  | none => exact raise_sameButOutputs s d b _ _ _

theorem execLdRegs_sameButOutputs (x : Reg) :
    SameButOutputs (execLdRegs x s) (execLdRegs x (s.withOutputs d b)) := by
  simp only [execLdRegs, withOutputs_loadBytes, withOutputs_dataAddr]
  cases s.loadBytes s.dataAddr (x + 1) with
  | some bs => exact .next _ d b
  | none => exact raise_sameButOutputs s d b _ _ _

theorem execSkp_sameButOutputs (x : Reg) : SameButOutputs (execSkp x s) (execSkp x (s.withOutputs d b)) := by
  simp only [execSkp, withOutputs_reg, withOutputs_key]
  cases keyOf (s.reg x) with
  | some k => exact skipIf_sameButOutputs s d b _
  | none => exact raise_sameButOutputs s d b _ _ _

theorem execSknp_sameButOutputs (x : Reg) : SameButOutputs (execSknp x s) (execSknp x (s.withOutputs d b)) := by
  simp only [execSknp, withOutputs_reg, withOutputs_key]
  cases keyOf (s.reg x) with
  | some k => exact skipIf_sameButOutputs s d b _
  | none => exact raise_sameButOutputs s d b _ _ _

theorem execLdVxK_sameButOutputs (x : Reg) : SameButOutputs (execLdVxK x s) (execLdVxK x (s.withOutputs d b)) := by
  simp only [execLdVxK, withOutputs_firstKey]
  cases s.firstKey with
  | some k => exact .next _ d b
  | none => exact .next _ d b

/-! ## Every instruction, and the step -/

theorem exec_sameButOutputs (i : Instr) : SameButOutputs (exec i s) (exec i (s.withOutputs d b)) := by
  cases i with
  | ret => exact execRet_sameButOutputs s d b
  | call n => exact execCall_sameButOutputs s d b n
  | drw x y n => exact execDrw_sameButOutputs s d b x y n
  | ldB x => exact execLdB_sameButOutputs s d b x
  | stRegs x => exact execStRegs_sameButOutputs s d b x
  | ldRegs x => exact execLdRegs_sameButOutputs s d b x
  | skp x => exact execSkp_sameButOutputs s d b x
  | sknp x => exact execSknp_sameButOutputs s d b x
  | ldVxK x => exact execLdVxK_sameButOutputs s d b x
  | cls => exact .next _ true b
  | ldStVx x => exact .next _ d (s.reg x)
  | seImm x kk => exact skipIf_sameButOutputs s d b (s.reg x == kk)
  | sneImm x kk => exact skipIf_sameButOutputs s d b (s.reg x != kk)
  | seReg x y u => exact skipIf_sameButOutputs s d b (s.reg x == s.reg y)
  | sneReg x y u => exact skipIf_sameButOutputs s d b (s.reg x != s.reg y)
  | _ => exact .next _ d b

theorem step_sameButOutputs : SameButOutputs (step s) (step (s.withOutputs d b)) := by
  obtain ⟨h, e⟩ | ⟨h, hp, e⟩ | ⟨h, -, w, hw, e⟩ := step_cases s
  · rw [e, step_stopped (s.withOutputs d b) h]
    exact .next s d b
  · rw [e, step_fetch_fault (s.withOutputs d b) h hp]
    exact .next _ d b
  · rw [e, step_running (s.withOutputs d b) h hw]
    exact exec_sameButOutputs s.advancePc d b (decodeWord w)

/-- Settles O40: a step runs the same branches, with the same operands, whatever DIRTY and ST hold. -/
theorem dirtyAndSoundTimerAreNeverRead : Obligations.DirtyAndSoundTimerAreNeverRead :=
  fun s t d b h => step_sameButOutputs s d b t h

end Sys2Proof.Machine
end

section
/-! The invariant of the machine is kept by every step and by every host transition, so every reachable state meets it
(10_state.md R21, R24; 60_exceptions.md R101, R102, R117). -/

namespace Sys2Proof.Machine

/-- The invariant speaks of the parameters, memory, the stack, pc and the fault record only. -/
theorem State.Inv.congr {s t : State} (hs : s.Inv) (hcfg : t.cfg = s.cfg) (hmem : t.mem = s.mem)
    (hstack : t.stack = s.stack) (hpc : t.pc = s.pc) (hfault : t.fault = s.fault) : t.Inv where
  cfgOk := hcfg ▸ hs.cfgOk
  memWf := by rw [hcfg, hmem]; exact hs.memWf
  stackBounded := by rw [State.sp, hstack, hcfg]; exact hs.stackBounded
  stackEntries := hstack ▸ hs.stackEntries
  pcBounded := hpc ▸ hs.pcBounded
  faultConsistent := by rw [hfault, hpc]; exact hs.faultConsistent

/-- A machine without a record keeps the invariant when it takes a consistent one. -/
theorem State.Inv.takeFault {s : State} (hs : s.Inv) {r : FaultRecord} (hr : r.Consistent s.pc) :
    (s.takeFault r).Inv :=
  { hs with faultConsistent := fun _ h => Option.some.inj h ▸ hr }

/-- An address two further on, where pc's 16 bits do not wrap. -/
theorem toNat_add_two {a : Word} (h : a.toNat < 65534) : (a + 2).toNat = a.toNat + 2 := by
  rw [BitVec.toNat_add, show (2 : Word).toNat = 2 from rfl]
  omega

/-! ## What an instruction at address a keeps, pc being a + 2 -/

section
variable {i : Instr} {s t : State} {a : Word} (hs : s.Inv) (hpc : s.pc = a + 2) (ha : a.toNat ≤ 4094)
  (h : exec i s = .next t)

include hpc ha in
/-- A skip that the instruction takes ends at a + 4. -/
theorem skipIf_pc_le (c : Bool) : (s.skipIf c).pc.toNat ≤ 4098 := by
  have h2 : (a + 2).toNat = a.toNat + 2 := toNat_add_two (by omega)
  cases c with
  | false =>
    rw [show s.skipIf false = s from rfl, hpc]
    omega
  | true =>
    rw [show s.skipIf true = s.advancePc from rfl, advancePc_pc, hpc, toNat_add_two (by omega)]
    omega

include hs hpc ha in
/-- R102's record of a condition of R101's table is consistent. -/
theorem consistent_of_faultCondition {c : FaultCause} {f : Option Nat} (w : Word)
    (hc : faultCondition i s = some (c, f)) : FaultRecord.Consistent ⟨c, a, some w, f⟩ s.pc := by
  cases i with
  | ret =>
    obtain ⟨-, e⟩ := Option.ite_none_right_eq_some.1 hc
    cases e
    exact ⟨ha, rfl, rfl, hpc⟩
  | call n =>
    obtain ⟨k, e⟩ := Option.ite_none_right_eq_some.1 hc
    cases e
    exact ⟨ha, rfl, ⟨_, rfl, k ▸ hs.cfgOk⟩, hpc⟩
  | ldB | stRegs | ldRegs | drw =>
    obtain ⟨-, e⟩ := Option.ite_none_right_eq_some.1 hc
    cases e
    exact ⟨ha, rfl, ⟨_, rfl, Nat.le_max_right _ _⟩, hpc⟩
  | skp x | sknp x =>
    obtain ⟨k, e⟩ := Option.ite_none_right_eq_some.1 hc
    cases e
    exact ⟨ha, rfl, ⟨_, rfl, k, Nat.le_of_lt_succ (s.reg x).isLt⟩, hpc⟩
  | _ => exact absurd hc nofun

include hs h

theorem exec_keeps_memWf : Memory.wf t.cfg.font t.mem := by
  rw [exec_cfg_same h]
  cases i with
  | ldB x =>
    obtain ⟨k, rfl⟩ | ⟨-, rfl⟩ := execLdB_eq_next h
    · exact Memory.wf_writeBytes hs.memWf (.inr (by rw [bcdDigits_length, memSize]; omega))
    · exact hs.memWf
  | stRegs x =>
    obtain ⟨k, rfl⟩ | ⟨-, rfl⟩ := execStRegs_eq_next h
    · exact Memory.wf_writeBytes hs.memWf (.inr (by rw [regsUpTo_length, memSize]; omega))
    · exact hs.memWf
  | _ => rw [exec_mem_same h nofun nofun]; exact hs.memWf

theorem exec_keeps_stackBounded : t.sp ≤ t.cfg.stackDepth := by
  have hBound := hs.stackBounded
  rw [exec_cfg_same h]
  cases i with
  | ret =>
    obtain ⟨rest, w, e, rfl⟩ | ⟨-, rfl⟩ := execRet_eq_next h
    · rw [State.sp, e, List.length_append] at hBound
      exact Nat.le_of_add_right_le hBound
    · exact hBound
  | call n =>
    obtain ⟨k, rfl⟩ | ⟨-, rfl⟩ := execCall_eq_next h
    · simp only [setPc_sp, push_sp]
      omega
    · exact hBound
  | _ => rw [State.sp, exec_stack_same h nofun nofun]; exact hBound

include hpc ha in
theorem exec_keeps_stackEntries : ∀ w ∈ t.stack, w.toNat ≤ memSize := by
  cases i with
  | ret =>
    obtain ⟨rest, w, e, rfl⟩ | ⟨-, rfl⟩ := execRet_eq_next h
    · exact fun v hv => hs.stackEntries v (e ▸ List.mem_append_left _ hv)
    · exact hs.stackEntries
  | call n =>
    obtain ⟨-, rfl⟩ | ⟨-, rfl⟩ := execCall_eq_next h
    · intro w hw
      obtain hw | hw := List.mem_append.1 hw
      · exact hs.stackEntries w hw
      · rw [List.mem_singleton.1 hw, hpc, toNat_add_two (by omega), memSize]
        omega
    · exact hs.stackEntries
  | _ => rw [exec_stack_same h nofun nofun]; exact hs.stackEntries

include hpc ha in
theorem exec_keeps_pcBounded : t.pc.toNat ≤ 0x10FE := by
  have hSkip := skipIf_pc_le hpc ha
  cases i with
  | ret =>
    obtain ⟨rest, w, e, rfl⟩ | ⟨-, rfl⟩ := execRet_eq_next h
    · have := hs.stackEntries w (by simp [e])
      exact Nat.le_trans this (by decide)
    · exact hs.pcBounded
  | call n =>
    obtain ⟨-, rfl⟩ | ⟨-, rfl⟩ := execCall_eq_next h
    · rw [setPc_pc, zextAddr_toNat]; omega
    · exact hs.pcBounded
  | jp n =>
    obtain rfl := Host.Outcome.next.inj h
    rw [setPc_pc, zextAddr_toNat]; omega
  | jpV0 n =>
    obtain rfl := Host.Outcome.next.inj h
    rw [setPc_pc, BitVec.toNat_add, zextAddr_toNat, zextByte_toNat]
    omega
  | seImm | sneImm | seReg | sneReg =>
    obtain rfl := Host.Outcome.next.inj h
    exact Nat.le_trans (hSkip _) (by decide)
  | skp x =>
    obtain ⟨-, c, rfl⟩ | ⟨-, rfl⟩ := execSkp_eq_next h
    · exact Nat.le_trans (hSkip c) (by decide)
    · exact hs.pcBounded
  | sknp x =>
    obtain ⟨-, c, rfl⟩ | ⟨-, rfl⟩ := execSknp_eq_next h
    · exact Nat.le_trans (hSkip c) (by decide)
    · exact hs.pcBounded
  | ldVxK x =>
    obtain ⟨k, -, rfl⟩ | ⟨-, rfl⟩ := execLdVxK_eq_next h
    · exact hs.pcBounded
    · rw [rewindPc_pc, hpc, BitVec.add_sub_cancel]
      omega
  | _ => rw [exec_pc_same h (by simp [writtenParts])]; exact hs.pcBounded

include hpc ha in
theorem exec_keeps_inv (hf : s.fault = none) : t.Inv := by
  obtain ⟨hc⟩ | ⟨-, frame, -⟩ := exec_answers h
  · rw [hpc, BitVec.add_sub_cancel]
    exact hs.takeFault (consistent_of_faultCondition hs hpc ha _ hc)
  · have hft : t.fault = none := (frame.fault_same fault_not_mem_writtenParts).trans hf
    exact {
      cfgOk := (exec_cfg_same h).symm ▸ hs.cfgOk
      memWf := exec_keeps_memWf hs h
      stackBounded := exec_keeps_stackBounded hs h
      stackEntries := exec_keeps_stackEntries hs hpc ha h
      pcBounded := exec_keeps_pcBounded hs hpc ha h
      faultConsistent := fun r hr => absurd (hft.symm.trans hr) nofun }

end

/-! ## The step -/

/-- The machine that the decoded instruction runs on meets the invariant. -/
theorem advancePc_inv {s : State} (hs : s.Inv) (hf : s.fault = none) (hp : s.pc.toNat < 4095) : s.advancePc.Inv :=
  { hs with
    pcBounded := by
      rw [advancePc_pc, toNat_add_two (by omega)]
      omega
    faultConsistent := fun r hr => absurd (hf.symm.trans hr) nofun }

/-- R102's record of a fetch at 4095 is consistent. -/
theorem consistent_fetchFault {s : State} (hp : s.pc.toNat = 4095) :
    FaultRecord.Consistent ⟨.fetchOutOfBounds, s.pc, none, some 4096⟩ s.pc := by
  have hpc : s.pc = 4095 := BitVec.eq_of_toNat_eq hp
  exact ⟨hpc, rfl, rfl, hpc⟩

theorem step_keeps_inv {s t : State} (hs : s.Inv) (h : step s = .next t) : t.Inv := by
  obtain ⟨-, e⟩ | ⟨-, hp, e⟩ | ⟨hrun, hp, w, -, e⟩ := step_cases s <;> rw [e] at h
  · exact Host.Outcome.next.inj h ▸ hs
  · exact Host.Outcome.next.inj h ▸ hs.takeFault (consistent_fetchFault hp)
  · have hf := ((status_running s).1 hrun).1
    exact exec_keeps_inv (advancePc_inv hs hf hp) rfl (by omega) h hf

/-- Settles O52, for the step's three cases: stopped, the fetch fault, the decoded instruction. -/
theorem stepKeepsTheInvariant : Obligations.StepKeepsTheInvariant := fun _ _ => step_keeps_inv

/-! ## The host's transitions and the reachable states -/

theorem tick_inv {s : State} (hs : s.Inv) : s.tick.Inv := by
  unfold State.tick
  split
  · exact hs
  · exact hs.congr rfl rfl rfl rfl rfl

theorem load_inv {s : State} (hs : s.Inv) (bytes : List Byte) : (s.load bytes).Inv := by
  unfold State.load
  split
  case isTrue => exact hs
  case isFalse hf =>
    have hLen : (bytes.take progCapacity).length ≤ 3584 := List.length_take_le _ _
    exact { hs with
      memWf := Memory.wf_writeBytes hs.memWf (.inr (by simp only [progBase, memSize]; omega))
      pcBounded := show (BitVec.ofNat 16 progBase).toNat ≤ 0x10FE by decide
      faultConsistent := fun r hr => absurd (Option.isSome_iff_exists.2 ⟨r, hr⟩) hf }

theorem setKey_inv {s : State} (hs : s.Inv) (k : Int) (pressed : Bool) : (s.setKey k pressed).Inv := by
  unfold State.setKey
  split
  · exact hs.congr rfl rfl rfl rfl rfl
  · exact hs

theorem transition_keeps_inv {s t : State} (hs : s.Inv) (h : Transition s t) : t.Inv := by
  cases h with
  | step h => exact step_keeps_inv hs h
  | tick => exact tick_inv hs
  | load bytes => exact load_inv hs bytes
  | setKey k pressed => exact setKey_inv hs k pressed
  | readFramebuffer => exact hs.congr rfl rfl rfl rfl rfl

theorem reachable_inv {s : State} (h : Reachable s) : s.Inv := by
  induction h with
  | constructed cfg hcfg => exact construct_inv hcfg
  | after _ ht ih => exact transition_keeps_inv ih ht

/-- Settles O54: a running machine's pc is below 4096, and the state that the step answers meets the invariant. -/
theorem programCounterNeverWraps : Obligations.ProgramCounterNeverWraps := by
  intro s t hs hrun h
  have hp := ((status_running s).1 hrun).2
  have ht := step_keeps_inv (reachable_inv hs) h
  exact ⟨toNat_add_two (by omega), ht.pcBounded, ht.stackEntries⟩

end Sys2Proof.Machine
end

section
/-! Stored registers as memory (20_memory.md R36, R45; 42_index_memory.md R88): what Fx55 answers on a range inside
memory, what each stored byte reads as, and the word that a fetch there gives. -/

namespace Sys2Proof.Machine

variable {s : State} {x : Reg}

/-- Fx55 on a range inside memory stores V0 to V[x]; the other case of `execStRegs_eq_next` is the fault. -/
theorem execStRegs_inside (h : s.dataAddr + x < 4096) :
    execStRegs x s = .next { s with mem := Memory.writeBytes s.cfg.font s.mem s.dataAddr (s.regsUpTo x) } := by
  rw [execStRegs, storeBytes_inside s (.inr (by rw [regsUpTo_length]; omega))]

/-- The byte at I + r is V[r] once V0 to V[x] are stored from I. -/
theorem readByte_regsStored (hm : Memory.wf s.cfg.font s.mem) (h : s.dataAddr + x < 4096) {r : Reg} (hr : r ≤ x) :
    State.readByte { s with mem := Memory.writeBytes s.cfg.font s.mem s.dataAddr (s.regsUpTo x) } (s.dataAddr + r) =
      s.reg r := by
  rw [readByte_writeBytes hm (.inr (by rw [regsUpTo_length]; omega)), if_pos (Nat.le_add_right ..),
    Nat.add_sub_cancel_left, regsUpTo_getD s x r hr]

/-- I + r as a 16-bit address, where the data address of V[r] is inside memory: pc's 16 bits do not wrap. -/
theorem toNat_index_add_reg {r : Reg} (h : s.dataAddr + r < 4096) :
    (s.index + BitVec.ofNat 16 r).toNat = s.dataAddr + r := by
  rw [BitVec.toNat_add, BitVec.toNat_ofNat, ← State.dataAddr]
  omega

/-- Settles O26: with pc at I + r the fetch reads the bytes at I + r and I + r + 1, which Fx55 has just stored. -/
theorem storedBytesAreFetched : Obligations.StoredBytesAreFetched := by
  intro x r q s hm hEnd hq hqx
  have hIn : s.dataAddr + x < 4096 := Nat.lt_succ_of_le hEnd
  have hqx' : q.val ≤ x.val := hqx
  have hrx : r ≤ x := Fin.le_def.2 (by omega)
  have hpc : (s.index + BitVec.ofNat 16 r).toNat = s.dataAddr + r := toNat_index_add_reg (by omega)
  refine ⟨_, execStRegs_inside hIn, ?_⟩
  rw [fetchWord_inside _ (by rw [setPc_pc, hpc]; omega), setPc_pc, hpc, setPc_readByte, setPc_readByte,
    readByte_regsStored hm hIn hrx, Nat.add_assoc, ← hq, readByte_regsStored hm hIn hqx]

end Sys2Proof.Machine
end

section
/-! The decoder and the encoder undo each other (30_encoding.md R49 to R58). -/

namespace Sys2Proof

/-! ## The four classes with reserved words

A class decoder drops no bit, answers a well-formed instruction, and answers the no-op where its sub-opcode is
reserved. -/

theorem encode_decodeClass0 (nnn : Addr12) : encode (decodeClass0 nnn) = formatA 0x0 nnn := by
  unfold decodeClass0
  split_ifs with hE0 hEE
  · rw [hE0]; rfl
  · rw [hEE]; rfl
  · rfl

theorem encode_decodeClass8 (x y : Reg) (n : Nibble) : encode (decodeClass8 x y n) = formatC 0x8 x y n := by
  unfold decodeClass8
  split <;> rfl

theorem encode_decodeClassE (x : Reg) (kk : Byte) : encode (decodeClassE x kk) = formatB 0xE x kk := by
  unfold decodeClassE
  split <;> rfl

theorem encode_decodeClassF (x : Reg) (kk : Byte) : encode (decodeClassF x kk) = formatB 0xF x kk := by
  unfold decodeClassF
  split <;> rfl

theorem wf_decodeClass0 (nnn : Addr12) : (decodeClass0 nnn).wf = true := by
  unfold decodeClass0
  split_ifs with hE0 hEE
  · rfl
  · rfl
  · rw [Instr.wf, decide_eq_false hE0, decide_eq_false hEE]; rfl

/-- Class 8 reserves every n that R54 gives no instruction. -/
theorem reserved8_eq : ∀ n : Nibble,
    reserved8 n = decide (n ∉ [0x0#4, 0x1, 0x2, 0x3, 0x4, 0x5, 0x6, 0x7, 0xE]) := by decide

theorem wf_decodeClass8 (x y : Reg) (n : Nibble) : (decodeClass8 x y n).wf = true := by
  unfold decodeClass8
  split
  case h_10 => simp_all [Instr.wf, reserved8_eq]
  all_goals rfl

theorem wf_decodeClassE (x : Reg) (kk : Byte) : (decodeClassE x kk).wf = true := by
  unfold decodeClassE
  split
  case h_3 => simp_all [Instr.wf, reservedE]
  all_goals rfl

theorem wf_decodeClassF (x : Reg) (kk : Byte) : (decodeClassF x kk).wf = true := by
  unfold decodeClassF
  split
  case h_10 => simp_all [Instr.wf, reservedF]
  all_goals rfl

theorem decodeClass0_reserved {nnn : Addr12} (h : Instr.wf (.nop0 nnn) = true) : decodeClass0 nnn = .nop0 nnn := by
  unfold decodeClass0
  split_ifs with hE0 hEE
  · exact absurd h (by rw [hE0]; decide)
  · exact absurd h (by rw [hEE]; decide)
  · rfl

theorem decodeClass8_reserved {x y : Reg} {u : Nibble} (h : reserved8 u = true) :
    decodeClass8 x y u = .nop8 x y u := by
  unfold decodeClass8
  split
  case h_10 => rfl
  all_goals exact absurd h (by decide)

theorem decodeClassE_reserved {x : Reg} {kk : Byte} (h : reservedE kk = true) :
    decodeClassE x kk = .nopE x kk := by
  unfold decodeClassE
  split
  case h_3 => rfl
  all_goals exact absurd h (by decide)

theorem decodeClassF_reserved {x : Reg} {kk : Byte} (h : reservedF kk = true) :
    decodeClassF x kk = .nopF x kk := by
  unfold decodeClassF
  split
  case h_10 => rfl
  all_goals exact absurd h (by decide)

/-! ## Decoding an encoding -/

/-- Each case reads the operands back from the fields of its format; a reserved no-op is read back because its word is
not an instruction's. -/
theorem decodeWord_encode {i : Instr} (h : i.wf = true) : decodeWord (encode i) = i := by
  cases i with
  | cls | ret => rfl
  | nop0 nnn => simpa [encode, decodeWord] using decodeClass0_reserved h
  | nop8 x y u => simpa [encode, decodeWord] using decodeClass8_reserved h
  | nopE x kk => simpa [encode, decodeWord] using decodeClassE_reserved h
  | nopF x kk => simpa [encode, decodeWord] using decodeClassF_reserved h
  | ldReg | orReg | andReg | xorReg | addReg | subReg | shr | subnReg | shl =>
    simp [encode, decodeWord, decodeClass8]
  | skp | sknp => simp [encode, decodeWord, decodeClassE]
  | ldVxDt | ldVxK | ldDtVx | ldStVx | addI | ldF | ldB | stRegs | ldRegs =>
    simp [encode, decodeWord, decodeClassF]
  | _ => simp [encode, decodeWord]

/-- Settles O1: the word by the cases of the instruction, the bytes by the big-endian order of R36. -/
theorem decodeOfEncodeIsIdentity : Obligations.DecodeOfEncodeIsIdentity := by
  intro i rest h
  refine ⟨decodeWord_encode h, ?_⟩
  rw [decode_encodeBytes, decodeWord_encode h]

/-- Settles O5: each word is the encoding of the instruction that the spec gives it. -/
theorem specWordsDecodeAsTheSpecSays : Obligations.SpecWordsDecodeAsTheSpecSays :=
  ⟨decodeWord_encode (i := .ret) rfl, decodeWord_encode (i := .seImm 10 0x42) rfl,
    decodeWord_encode (i := .seReg 1 2 7) rfl, decodeWord_encode (i := .shr 1 2) rfl,
    decodeWord_encode (i := .ldI 0x123) rfl, decodeWord_encode (i := .rnd 3 0x0F) rfl,
    decodeWord_encode (i := .drw 1 2 5) rfl, decodeWord_encode (i := .sknp 5) rfl,
    decodeWord_encode (i := .stRegs 3) rfl, decodeWord_encode (i := .nop0 0x1E0) rfl,
    decodeWord_encode (i := .nop8 1 2 0xB) rfl⟩

/-! ## Encoding a decoding -/

theorem nibble_eq_F_of_not_below : ∀ c : Nibble,
    c ∉ [0x0#4, 0x1, 0x2, 0x3, 0x4, 0x5, 0x6, 0x7, 0x8, 0x9, 0xA, 0xB, 0xC, 0xD, 0xE] → c = 0xF := by decide

/-- The fields of a word make it again in the format of its class: `h_1` is class 0, and so on to `h_16`, class F. -/
theorem encode_decodeWord (w : Word) : encode (decodeWord w) = w := by
  have hA := formatA_of_fields w
  have hB := formatB_of_fields w
  have hC := formatC_of_fields w
  unfold decodeWord
  split
  case h_1 h => rw [h] at hA; exact (encode_decodeClass0 _).trans hA
  case h_9 h => rw [h] at hC; exact (encode_decodeClass8 _ _ _).trans hC
  case h_15 h => rw [h] at hB; exact (encode_decodeClassE _ _).trans hB
  case h_16 =>
    rw [nibble_eq_F_of_not_below (fieldC w) (by simp_all)] at hB
    exact (encode_decodeClassF _ _).trans hB
  case h_2 h | h_3 h | h_11 h | h_12 h => rw [h] at hA; exact hA
  case h_4 h | h_5 h | h_7 h | h_8 h | h_13 h => rw [h] at hB; exact hB
  case h_6 h | h_10 h | h_14 h => rw [h] at hC; exact hC

theorem wf_decodeWord (w : Word) : (decodeWord w).wf = true := by
  unfold decodeWord
  split
  case h_1 => exact wf_decodeClass0 _
  case h_9 => exact wf_decodeClass8 _ _ _
  case h_15 => exact wf_decodeClassE _ _
  case h_16 => exact wf_decodeClassF _ _
  all_goals rfl

/-- Settles O2, by the class of the word: its fields make it again in the format of its class. -/
theorem encodeOfDecodeIsIdentity : Obligations.EncodeOfDecodeIsIdentity :=
  fun w => ⟨wf_decodeWord w, encode_decodeWord w⟩

end Sys2Proof
end

section
/-! The opcode table (spec/opcode_table.json): its rows apart from one another, the row of every instruction, and the
reserved words, which no instruction row takes (30_encoding.md R51, R57, R58). -/

namespace Sys2Proof

/-! ## Rows that fit a word -/

theorem OpcodeRow.fits_iff {r : OpcodeRow} {w : Word} : r.fits w = true ↔ w &&& r.mask = r.pattern :=
  decide_eq_true_iff

/-- Two rows that some word fits agree where both masks look. -/
theorem OpcodeRow.patterns_agree {r q : OpcodeRow} {w : Word} (hr : r.fits w = true) (hq : q.fits w = true) :
    r.pattern &&& q.mask = q.pattern &&& r.mask := by
  rw [← fits_iff.1 hr, ← fits_iff.1 hq, BitVec.and_assoc, BitVec.and_assoc, BitVec.and_comm r.mask]

/-- No two rows of the list agree where both their masks look. -/
def RowsApart (rows : List OpcodeRow) : Prop :=
  ∀ r ∈ rows, ∀ q ∈ rows, r.pattern &&& q.mask = q.pattern &&& r.mask → r = q

theorem RowsApart.eq_of_fits {rows : List OpcodeRow} (h : RowsApart rows) {w : Word} {r q : OpcodeRow} (hr : r ∈ rows)
    (hq : q ∈ rows) (hrw : r.fits w = true) (hqw : q.fits w = true) : r = q :=
  h r hr q hq (OpcodeRow.patterns_agree hrw hqw)

/-- The first row that the word fits is any row that it fits. -/
theorem RowsApart.find?_eq {rows : List OpcodeRow} (h : RowsApart rows) {w : Word} {r : OpcodeRow} (hr : r ∈ rows)
    (hrw : r.fits w = true) : rows.find? (OpcodeRow.fits · w) = some r := by
  cases hf : rows.find? (OpcodeRow.fits · w) with
  | none => exact absurd hrw (List.find?_eq_none.1 hf r hr)
  | some q =>
    have hqw : q.fits w = true := by simpa using List.find?_some hf
    rw [h.eq_of_fits (List.mem_of_find?_eq_some hf) hr hqw hrw]

theorem instructionRows_apart : RowsApart instructionRows := by unfold RowsApart; decide

theorem reservedRows_apart : RowsApart reservedRows := by unfold RowsApart; decide

/-- Settles O4: the patterns of two rows differ at a bit that both masks look at. -/
theorem instructionRowsNeverOverlap : Obligations.InstructionRowsNeverOverlap :=
  fun _ _ _ hr hq => instructionRows_apart.eq_of_fits hr hq

/-! ## The row of an instruction -/

/-- The bits of an instruction's word that its row of the opcode table fixes. -/
def Instr.mask : Instr → Word
  | .cls | .ret => 0xFFFF
  | .ldReg _ _ | .orReg _ _ | .andReg _ _ | .xorReg _ _ | .addReg _ _ | .subReg _ _ | .shr _ _ | .subnReg _ _
  | .shl _ _ => 0xF00F
  | .skp _ | .sknp _ | .ldVxDt _ | .ldVxK _ | .ldDtVx _ | .ldStVx _ | .addI _ | .ldF _ | .ldB _ | .stRegs _
  | .ldRegs _ => 0xF0FF
  | .jp _ | .call _ | .seImm _ _ | .sneImm _ _ | .seReg _ _ _ | .ldImm _ _ | .addImm _ _ | .sneReg _ _ _ | .ldI _
  | .jpV0 _ | .rnd _ _ | .drw _ _ _ | .nop0 _ | .nop8 _ _ _ | .nopE _ _ | .nopF _ _ => 0xF000

/-- The row of an instruction: its mnemonic, and its word under its mask. -/
def Instr.row (i : Instr) : OpcodeRow := ⟨i.mnemonic, encode i &&& i.mask, i.mask⟩

theorem Instr.row_fits (i : Instr) : i.row.fits (encode i) = true := OpcodeRow.fits_iff.2 rfl

theorem nibble_and_F (c : Nibble) : c &&& 0xF#4 = c := BitVec.and_allOnes

theorem byte_and_FF (kk : Byte) : kk &&& 0xFF#8 = kk := BitVec.and_allOnes

theorem formatA_and_F000 (c : Nibble) (nnn : Addr12) : formatA c nnn &&& 0xF000 = formatA c 0 := by
  rw [formatA, show (0xF000 : Word) = 0xF#4 ++ 0x000#12 from rfl, BitVec.and_append, nibble_and_F, BitVec.and_zero]
  rfl

theorem formatB_and_F000 (c : Nibble) (x : Reg) (kk : Byte) : formatB c x kk &&& 0xF000 = formatB c 0 0 := by
  rw [formatB, show (0xF000 : Word) = 0xF#4 ++ 0x0#4 ++ 0x00#8 from rfl, BitVec.and_append,
    BitVec.and_append, nibble_and_F, BitVec.and_zero, BitVec.and_zero]
  rfl

theorem formatB_and_F0FF (c : Nibble) (x : Reg) (kk : Byte) : formatB c x kk &&& 0xF0FF = formatB c 0 kk := by
  rw [formatB, show (0xF0FF : Word) = 0xF#4 ++ 0x0#4 ++ 0xFF#8 from rfl, BitVec.and_append,
    BitVec.and_append, nibble_and_F, BitVec.and_zero, byte_and_FF]
  rfl

theorem formatC_and_F000 (c : Nibble) (x y : Reg) (n : Nibble) : formatC c x y n &&& 0xF000 = formatC c 0 0 0 := by
  rw [formatC, show (0xF000 : Word) = 0xF#4 ++ 0x0#4 ++ 0x0#4 ++ 0x0#4 from rfl, BitVec.and_append, BitVec.and_append,
    BitVec.and_append, nibble_and_F, BitVec.and_zero, BitVec.and_zero, BitVec.and_zero]
  rfl

theorem formatC_and_F00F (c : Nibble) (x y : Reg) (n : Nibble) : formatC c x y n &&& 0xF00F = formatC c 0 0 n := by
  rw [formatC, show (0xF00F : Word) = 0xF#4 ++ 0x0#4 ++ 0x0#4 ++ 0xF#4 from rfl, BitVec.and_append, BitVec.and_append,
    BitVec.and_append, nibble_and_F, nibble_and_F, BitVec.and_zero, BitVec.and_zero]
  rfl

/-- The row of an instruction is an instruction row of the table; that of a reserved no-op is a reserved row. -/
theorem Instr.row_mem (i : Instr) : i.row ∈ if i.isReserved then reservedRows else instructionRows := by
  cases i with
  | cls | ret => decide
  | jp | call | ldI | jpV0 | nop0 => rw [row, mnemonic, isReserved, encode, mask, formatA_and_F000]; decide
  | seImm | sneImm | ldImm | addImm | rnd | nopE | nopF =>
    rw [row, mnemonic, isReserved, encode, mask, formatB_and_F000]; decide
  | seReg | sneReg | drw | nop8 => rw [row, mnemonic, isReserved, encode, mask, formatC_and_F000]; decide
  | ldReg | orReg | andReg | xorReg | addReg | subReg | shr | subnReg | shl =>
    rw [row, mnemonic, isReserved, encode, mask, formatC_and_F00F]; decide
  | skp | sknp | ldVxDt | ldVxK | ldDtVx | ldStVx | addI | ldF | ldB | stRegs | ldRegs =>
    rw [row, mnemonic, isReserved, encode, mask, formatB_and_F0FF]; decide

/-! ## Reserved words fit no instruction row -/

/-- A field that a row's mask keeps whole is the same in the row's pattern and in every word that fits the row. -/
theorem OpcodeRow.pattern_field {q : OpcodeRow} {w : Word} {start len : Nat} (h : q.fits w = true)
    (hmask : q.mask.extractLsb' start len = BitVec.allOnes len) :
    q.pattern.extractLsb' start len = w.extractLsb' start len := by
  rw [← fits_iff.1 h, BitVec.extractLsb'_and, hmask, BitVec.and_allOnes]

/-- Every instruction row fixes the class nibble. -/
theorem instructionRows_class : ∀ q ∈ instructionRows, fieldC q.mask = BitVec.allOnes 4 := by decide

theorem instructionRows_class0 : ∀ q ∈ instructionRows, fieldC q.pattern = 0x0 →
    fieldNNN q.mask = BitVec.allOnes 12 ∧ Instr.wf (.nop0 (fieldNNN q.pattern)) = false := by decide

theorem instructionRows_class8 : ∀ q ∈ instructionRows, fieldC q.pattern = 0x8 →
    fieldN q.mask = BitVec.allOnes 4 ∧ reserved8 (fieldN q.pattern) = false := by decide

theorem instructionRows_classE : ∀ q ∈ instructionRows, fieldC q.pattern = 0xE →
    fieldKK q.mask = BitVec.allOnes 8 ∧ reservedE (fieldKK q.pattern) = false := by decide

theorem instructionRows_classF : ∀ q ∈ instructionRows, fieldC q.pattern = 0xF →
    fieldKK q.mask = BitVec.allOnes 8 ∧ reservedF (fieldKK q.pattern) = false := by decide

/-- An instruction row of the class of a reserved word keeps the field that its class decodes, and holds a value there
that is not reserved. -/
theorem not_fits_of_reserved {i : Instr} (hwf : i.wf = true) (hi : i.isReserved = true) {q : OpcodeRow}
    (hq : q ∈ instructionRows) : ¬q.fits (encode i) = true := by
  intro hfit
  have hC : fieldC q.pattern = fieldC (encode i) := OpcodeRow.pattern_field hfit (instructionRows_class q hq)
  cases i with
  | nop0 nnn =>
    obtain ⟨hmask, hres⟩ := instructionRows_class0 q hq (hC.trans (fieldC_formatA _ _))
    have hNNN : fieldNNN q.pattern = nnn := (OpcodeRow.pattern_field hfit hmask).trans (fieldNNN_formatA _ _)
    rw [hNNN, hwf] at hres
    cases hres
  | nop8 x y u =>
    obtain ⟨hmask, hres⟩ := instructionRows_class8 q hq (hC.trans (fieldC_formatC _ _ _ _))
    have hN : fieldN q.pattern = u := (OpcodeRow.pattern_field hfit hmask).trans (fieldN_formatC _ _ _ _)
    rw [hN] at hres
    cases hres.symm.trans hwf
  | nopE x kk =>
    obtain ⟨hmask, hres⟩ := instructionRows_classE q hq (hC.trans (fieldC_formatB _ _ _))
    have hKK : fieldKK q.pattern = kk := (OpcodeRow.pattern_field hfit hmask).trans (fieldKK_formatB _ _ _)
    rw [hKK] at hres
    cases hres.symm.trans hwf
  | nopF x kk =>
    obtain ⟨hmask, hres⟩ := instructionRows_classF q hq (hC.trans (fieldC_formatB _ _ _))
    have hKK : fieldKK q.pattern = kk := (OpcodeRow.pattern_field hfit hmask).trans (fieldKK_formatB _ _ _)
    rw [hKK] at hres
    cases hres.symm.trans hwf
  | _ => cases hi

/-! ## The mnemonic that the table gives -/

/-- The first row that fits an instruction's word is the instruction's own: no two instruction rows overlap, and a
reserved row is reached only where no instruction row fits. -/
theorem tableMnemonic_encode {i : Instr} (hwf : i.wf = true) : tableMnemonic (encode i) = some i.mnemonic := by
  have hmem := i.row_mem
  rw [tableMnemonic, List.find?_append]
  cases hi : i.isReserved with
  | false =>
    rw [hi] at hmem
    rw [instructionRows_apart.find?_eq hmem i.row_fits]
    rfl
  | true =>
    rw [hi] at hmem
    rw [reservedRows_apart.find?_eq hmem i.row_fits,
      List.find?_eq_none.2 fun q hq => not_fits_of_reserved hwf hi hq]
    rfl

/-- Settles O3: the word is the encoding of its instruction (O2), whose row is the first that fits it. -/
theorem decodeAgreesWithTheOpcodeTable : Obligations.DecodeAgreesWithTheOpcodeTable := by
  intro w
  have h := tableMnemonic_encode (wf_decodeWord w)
  rwa [encode_decodeWord] at h

end Sys2Proof
end

section
/-! The reserved no-op (30_encoding.md R58, R59), and the totality of the step (R47, 60_exceptions.md R102). -/

namespace Sys2Proof

/-! ## Reserved words -/

/-- The reserved space of R58, as its statement spells it. -/
def ReservedWord (w : Word) : Prop :=
  (fieldC w = 0x0 ∧ w ≠ 0x00E0 ∧ w ≠ 0x00EE) ∨
  (fieldC w = 0x8 ∧ fieldN w ∈ [0x8, 0x9, 0xA, 0xB, 0xC, 0xD, 0xF]) ∨
  (fieldC w = 0xE ∧ fieldKK w ∉ [0x9E, 0xA1]) ∨
  (fieldC w = 0xF ∧ fieldKK w ∉ [0x07, 0x0A, 0x15, 0x18, 0x1E, 0x29, 0x33, 0x55, 0x65])

theorem formatA_injective (c : Nibble) : Function.Injective (formatA c) := fun a b h => by
  simpa using congrArg fieldNNN h

/-- A well-formed instruction is a reserved no-op exactly when its word is in the reserved space. -/
theorem isReserved_iff_reservedWord {i : Instr} (hwf : i.wf = true) :
    i.isReserved = true ↔ ReservedWord (encode i) := by
  cases i with
  | nop0 nnn =>
    have hE0 : formatA 0x0 nnn ≠ formatA 0x0 0x0E0 := fun h => by
      rw [formatA_injective 0x0 h] at hwf; cases hwf
    have hEE : formatA 0x0 nnn ≠ formatA 0x0 0x0EE := fun h => by
      rw [formatA_injective 0x0 h] at hwf; cases hwf
    exact iff_of_true rfl (.inl ⟨fieldC_formatA _ _, hE0, hEE⟩)
  | nop8 x y u => simpa [Instr.isReserved, ReservedWord, encode, Instr.wf, reserved8, or_assoc] using hwf
  | nopE x kk => simpa [Instr.isReserved, ReservedWord, encode, Instr.wf, reservedE] using hwf
  | nopF x kk => simpa [Instr.isReserved, ReservedWord, encode, Instr.wf, reservedF, and_assoc] using hwf
  | cls | ret => simp [Instr.isReserved, ReservedWord, encode, fieldC]
  | _ => simp [Instr.isReserved, ReservedWord, encode]

end Sys2Proof

namespace Sys2Proof.Machine

/-- The execution of a reserved no-op answers the state it is given. -/
theorem exec_reserved {i : Instr} (hi : i.isReserved = true) (s : State) : exec i s = .next s := by
  cases i with
  | nop0 | nop8 | nopE | nopF => rfl
  | _ => cases hi

/-- The step of a running machine at a reserved word is the fetch's pc + 2 alone. -/
theorem step_reserved {s : State} {w : Word} (hs : s.status = .running) (hw : s.fetchWord = some w)
    (hi : (decodeWord w).isReserved = true) : step s = .next s.advancePc := by
  rw [step_running s hs hw, exec_reserved hi]

/-- Settles O8: the reserved space by the encoding of the decoded instruction (O2), the four no-ops and their step by
`exec_reserved`. -/
theorem reservedWordsAreNoOps : Obligations.ReservedWordsAreNoOps := by
  refine ⟨fun w => ?_, fun s nnn => exec_reserved rfl s, fun s x y u => exec_reserved rfl s,
    fun s x kk => exec_reserved rfl s, fun s x kk => exec_reserved rfl s, fun s w hs hw hi => step_reserved hs hw hi⟩
  have h := isReserved_iff_reservedWord (wf_decodeWord w)
  rwa [encode_decodeWord] at h

/-! ## The step always answers a next state -/

/-- Each branching meaning answers a next state on either branch: the one that raises a fault answers the state that
holds the record (log 1). -/
theorem exec_answers_next (i : Instr) (s : State) : ∃ t, exec i s = .next t := by
  cases i with
  | ret | call | drw | ldB | stRegs | ldRegs | skp | sknp | ldVxK =>
    dsimp only [exec, execRet, execCall, execDrw, execLdB, execStRegs, execLdRegs, execSkp, execSknp, execLdVxK]
    split <;> exact ⟨_, rfl⟩
  | _ => exact ⟨_, rfl⟩

/-- Settles O7, by the three cases of the step: stopped, the fetch fault, an execution. -/
theorem stepAlwaysAnswersANextState : Obligations.StepAlwaysAnswersANextState := by
  intro s
  obtain ⟨-, h⟩ | ⟨-, -, h⟩ | ⟨-, -, w, -, h⟩ := step_cases s
  · exact ⟨s, h⟩
  · exact ⟨_, h⟩
  · rw [h]; exact exec_answers_next (decodeWord w) s.advancePc

end Sys2Proof.Machine
end

section
/-! Control transfer (40_control_flow.md R62 to R69): what the return, the call, the jumps and the skips answer. -/

namespace Sys2Proof.Machine

/-! ## Return and call -/

/-- The frame of a change of the stack and of pc, in the order in which the statements name the two. -/
theorem UnchangedBut.setStackThenPc (s : State) (l : List Word) (w : Word) :
    UnchangedBut s (({ s with stack := l } : State).setPc w) [] [.pc, .stack] [] :=
  ((UnchangedBut.setStack s l).trans (.setPc _ w)).widen (List.nil_subset _) (by simp) (List.nil_subset _)

section
variable {s : State}

theorem exec_ret_of_append {rest : List Word} {w : Word} (h : s.stack = rest ++ [w]) :
    exec .ret s = .next (({ s with stack := rest } : State).setPc w) := by
  show execRet s = _
  rw [execRet, pop_append s h]

theorem exec_ret_of_empty (h : s.stack = []) : exec .ret s = s.raise .ret .stackUnderflow none := by
  show execRet s = _
  rw [execRet, pop_empty s h]

theorem exec_call_of_ne_depth (nnn : Addr12) (h : s.sp ≠ s.cfg.stackDepth) :
    exec (.call nnn) s = .next ((s.push s.pc).setPc (zextAddr nnn)) :=
  if_neg h

theorem exec_call_of_eq_depth (nnn : Addr12) (h : s.sp = s.cfg.stackDepth) :
    exec (.call nnn) s = s.raise (.call nnn) .stackOverflow (some s.sp) :=
  if_pos h

end

/-- Settles O9, by the two cases of the pop (R62). -/
theorem returnPopsIntoPc : Obligations.ReturnPopsIntoPc := by
  intro s a hpc
  refine ⟨decodeWord_encode (i := .ret) rfl, fun rest w h => ?_, fun h => ?_⟩
  · exact ⟨_, exec_ret_of_append h, rfl, rfl, .setStackThenPc s rest w⟩
  · exact ⟨_, (exec_ret_of_empty h).trans (raise_next s _ _ _ hpc), rfl, .takeFault s _⟩

/-- Settles O11: below the depth the call pushes pc, which is a + 2, and jumps; at the depth it raises (R64). -/
theorem callPushesThenJumps : Obligations.CallPushesThenJumps := by
  intro nnn s a hpc
  refine ⟨decodeWord_encode (i := .call nnn) rfl, fun h => ?_, fun h => ?_⟩
  · have hstack : ((s.push s.pc).setPc (zextAddr nnn)).stack = s.stack ++ [a + 2] := by simp [hpc]
    exact ⟨_, exec_call_of_ne_depth nnn h, hstack, push_sp s s.pc, zextAddr_toNat nnn, .setStackThenPc s _ _⟩
  · exact ⟨_, (exec_call_of_eq_depth nnn h).trans (raise_next s _ _ _ hpc), rfl, .takeFault s _⟩

/-- Settles O37: the return pops the pc that the call pushed, wherever the return stands. -/
theorem callThenReturnComesBack : Obligations.CallThenReturnComesBack := by
  intro nnn s p h
  have hstack : ({ (s.push s.pc).setPc (zextAddr nnn) with pc := p } : State).stack = s.stack ++ [s.pc] := rfl
  exact ⟨_, _, exec_call_of_ne_depth nnn h, exec_ret_of_append hstack, rfl⟩

/-! ## Jumps -/

/-- Settles O10, for the target zero-extended (R63). -/
theorem jumpSetsPc : Obligations.JumpSetsPc := fun nnn s =>
  ⟨decodeWord_encode (i := .jp nnn) rfl, _, rfl, zextAddr_toNat nnn, .setPc s _⟩

/-- An address and an offset make at most 0xFFF + 0xFF, which 16 bits hold. -/
theorem zextAddr_add_zextByte_toNat (nnn : Addr12) (b : Byte) :
    (zextAddr nnn + zextByte b).toNat = nnn.toNat + b.toNat := by
  have := nnn.isLt
  have := b.isLt
  rw [BitVec.toNat_add, zextAddr_toNat, zextByte_toNat]
  omega

/-- Settles O12: the sum does not wrap, and its bound is that of its operands (R65). -/
theorem jumpWithOffsetAddsV0 : Obligations.JumpWithOffsetAddsV0 := by
  intro nnn s
  have hsum := zextAddr_add_zextByte_toNat nnn (s.reg 0)
  have hbound : (zextAddr nnn + zextByte (s.reg 0)).toNat ≤ 0x10FE := by
    have := nnn.isLt
    have := (s.reg 0).isLt
    omega
  exact ⟨decodeWord_encode (i := .jpV0 nnn) rfl, _, rfl, hsum, hbound, .setPc s _⟩

/-! ## Skips -/

/-- An instruction that skips on c moves pc two further on where P makes c true, and leaves it where Q makes c false. -/
theorem exec_skips {i : Instr} {s : State} {c : Bool} {P Q : Prop} (h : exec i s = .next (s.skipIf c))
    (hP : P → c = true) (hQ : Q → c = false) :
    ∃ t, exec i s = .next t ∧ (P → t.pc = s.pc + 2) ∧ (Q → t.pc = s.pc) ∧ UnchangedBut s t [] [.pc] [] := by
  refine ⟨_, h, fun p => ?_, fun q => ?_, .skipIf s c⟩
  · rw [skipIf_pc, hP p, if_pos rfl]
  · rw [skipIf_pc, hQ q, if_neg Bool.false_ne_true]

/-- Settles O13: each of the four skips on its own comparison (R66 to R69). -/
theorem skipsCompareAndAdvance : Obligations.SkipsCompareAndAdvance := fun x y kk u _ =>
  ⟨decodeWord_encode (i := .seImm x kk) rfl, decodeWord_encode (i := .sneImm x kk) rfl,
    decodeWord_encode (i := .seReg x y u) rfl, decodeWord_encode (i := .sneReg x y u) rfl,
    exec_skips rfl beq_iff_eq.2 beq_eq_false_iff_ne.2, exec_skips rfl bne_iff_ne.2 bne_eq_false_iff_eq.2,
    exec_skips rfl beq_iff_eq.2 beq_eq_false_iff_ne.2, exec_skips rfl bne_iff_ne.2 bne_eq_false_iff_eq.2⟩

end Sys2Proof.Machine
end

section
/-! Register loads, arithmetic, logic, shifts and random (41_alu.md R71 to R83): what each answers, the five that write
VF by one rule for a flag write followed by a destination write. -/

namespace Sys2Proof.Machine

/-! ## Flags as numbers -/

theorem carryFlag_toNat (a b : Byte) : (carryFlag a b).toNat = if a.toNat + b.toNat > 255 then 1 else 0 := by
  rw [carryFlag, flagOf_toNat]
  simp only [decide_eq_true_eq]

theorem noBorrowFlag_toNat (a b : Byte) : (noBorrowFlag a b).toNat = if a.toNat ≥ b.toNat then 1 else 0 := by
  rw [noBorrowFlag, flagOf_toNat]
  simp only [decide_eq_true_eq]

/-! ## A flag write and then a destination write -/

/-- An operand read after the flag write: register 15 has the new flag (00_scope.md R14). -/
theorem setFlag_reg_toNat (s : State) (f : Byte) (q : Reg) :
    ((s.setFlag f).reg q).toNat = if q = VF then f.toNat else (s.reg q).toNat := by
  rw [setFlag_reg, apply_ite BitVec.toNat]

/-- An instruction that writes VF and then V[x]: the flag stands unless the destination is VF itself (R83). -/
theorem exec_flagThenReg {i : Instr} {s : State} {x : Reg} {f b : Byte} {flag result : Nat}
    (h : exec i s = .next ((s.setFlag f).setReg x b)) (hf : f.toNat = flag) (hb : b.toNat = result) :
    ∃ t, exec i s = .next t ∧ (x ≠ VF → (t.reg VF).toNat = flag) ∧ (t.reg x).toNat = result ∧
      UnchangedBut s t [x, VF] [] [] := by
  refine ⟨_, h, fun hx => ?_, ?_, .flagThenReg s x f b⟩
  · rw [setReg_reg_other _ b hx.symm, setFlag_reg_toNat, if_pos rfl, hf]
  · rw [setReg_reg_same, hb]

/-! ## Sum and differences -/

/-- Settles O16: both operands are read before the carry is written (R77). -/
theorem addSetsCarryThenSum : Obligations.AddSetsCarryThenSum := by
  intro x y s
  obtain ⟨t, ht, hflag, hsum, hframe⟩ := exec_flagThenReg (i := .addReg x y) (s := s) rfl
    (carryFlag_toNat (s.reg x) (s.reg y)) (BitVec.toNat_add (s.reg x) (s.reg y))
  exact ⟨decodeWord_encode (i := .addReg x y) rfl, t, ht, hsum, hflag, hframe⟩

/-- The difference of two operands that are both read after the flag write. -/
theorem sub_after_setFlag_toNat (s : State) {f : Byte} {flag : Nat} (hf : f.toNat = flag) (p q : Reg) :
    ((s.setFlag f).reg p - (s.setFlag f).reg q).toNat =
      ((if p = VF then flag else (s.reg p).toNat) + 256 - (if q = VF then flag else (s.reg q).toNat)) % 256 := by
  rw [byte_sub_toNat, setFlag_reg_toNat, setFlag_reg_toNat, hf]

/-- Settles O17: NOT borrow by the old operands, the difference by the operands after the flag (R78). -/
theorem subtractSetsNoBorrowThenDifference : Obligations.SubtractSetsNoBorrowThenDifference := fun x y s =>
  have hflag := noBorrowFlag_toNat (s.reg x) (s.reg y)
  ⟨decodeWord_encode (i := .subReg x y) rfl, exec_flagThenReg rfl hflag (sub_after_setFlag_toNat s hflag x y)⟩

/-- Settles O18: as O17 with the operands exchanged (R79). -/
theorem reverseSubtractSetsNoBorrowThenDifference : Obligations.ReverseSubtractSetsNoBorrowThenDifference :=
  fun x y s =>
    have hflag := noBorrowFlag_toNat (s.reg y) (s.reg x)
    ⟨decodeWord_encode (i := .subnReg x y) rfl, exec_flagThenReg rfl hflag (sub_after_setFlag_toNat s hflag y x)⟩

/-! ## Shifts -/

theorem shiftOperand_eq {p : ShiftSource} {x y src : Reg} (h : p = .y ∧ src = y ∨ p = .x ∧ src = x) :
    shiftOperand p x y = src := by
  obtain ⟨rfl, rfl⟩ | ⟨rfl, rfl⟩ := h <;> rfl

/-- Settles O19: the shifted value is the source after the flag, for either source register (R80). -/
theorem shiftRightReadsItsSourceAfterTheFlag : Obligations.ShiftRightReadsItsSourceAfterTheFlag := by
  intro x y src s hsrc
  obtain rfl := shiftOperand_eq hsrc
  refine ⟨decodeWord_encode (i := .shr x y) rfl, exec_flagThenReg rfl (lsbFlag_toNat _) ?_⟩
  rw [BitVec.toNat_ushiftRight, Nat.shiftRight_one, setFlag_reg_toNat, lsbFlag_toNat]

/-- Settles O20: the shifted value is the source after the flag, for either source register (R81). -/
theorem shiftLeftReadsItsSourceAfterTheFlag : Obligations.ShiftLeftReadsItsSourceAfterTheFlag := by
  intro x y src s hsrc
  obtain rfl := shiftOperand_eq hsrc.symm
  refine ⟨decodeWord_encode (i := .shl x y) rfl, exec_flagThenReg rfl (msbFlag_toNat _) ?_⟩
  rw [BitVec.toNat_shiftLeft, Nat.shiftLeft_eq, pow_one, Nat.mul_comm, setFlag_reg_toNat, msbFlag_toNat]

/-! ## Loads, logic and random: V[x] alone -/

theorem exec_setReg {i : Instr} {s : State} {x : Reg} {b : Byte} (h : exec i s = .next (s.setReg x b)) :
    ∃ t, exec i s = .next t ∧ t.reg x = b ∧ UnchangedBut s t [x] [] [] :=
  ⟨_, h, setReg_reg_same s x b, .setReg s x b⟩

/-- Settles O14: each of the two writes V[x] alone (R71, R72). -/
theorem immediateLoadAndAdd : Obligations.ImmediateLoadAndAdd := by
  intro x kk s
  refine ⟨decodeWord_encode (i := .ldImm x kk) rfl, decodeWord_encode (i := .addImm x kk) rfl, exec_setReg rfl, ?_⟩
  obtain ⟨t, ht, hx, hframe⟩ := exec_setReg (i := .addImm x kk) (s := s) rfl
  exact ⟨t, ht, by rw [hx, BitVec.toNat_add], hframe⟩

/-- An instruction whose V[x] has the bits v: the operation of the rule, bit by bit. -/
theorem exec_setReg_bits {i : Instr} {s : State} {x : Reg} {b : Byte} {v : Nat → Bool}
    (h : exec i s = .next (s.setReg x b)) (hb : ∀ k, b.getLsbD k = v k) :
    ∃ t, exec i s = .next t ∧ (∀ k, (t.reg x).getLsbD k = v k) ∧ UnchangedBut s t [x] [] [] := by
  obtain ⟨t, ht, hx, hframe⟩ := exec_setReg h
  exact ⟨t, ht, fun k => by rw [hx, hb], hframe⟩

/-- Settles O15: the copy and each operation bit by bit, in V[x] alone (R73 to R76). -/
theorem copyAndLogicWriteOnlyVx : Obligations.CopyAndLogicWriteOnlyVx := fun x y _ =>
  ⟨decodeWord_encode (i := .ldReg x y) rfl, decodeWord_encode (i := .orReg x y) rfl,
    decodeWord_encode (i := .andReg x y) rfl, decodeWord_encode (i := .xorReg x y) rfl,
    exec_setReg rfl, exec_setReg_bits rfl fun _ => BitVec.getLsbD_or,
    exec_setReg_bits rfl fun _ => BitVec.getLsbD_and, exec_setReg_bits rfl fun _ => BitVec.getLsbD_xor⟩

/-- Settles O21: the drawn byte masked, and one draw counted (R82; log 3). -/
theorem randomByteIsMasked : Obligations.RandomByteIsMasked := by
  intro x kk s
  refine ⟨decodeWord_encode (i := .rnd x kk) rfl, _, rfl, fun k => ?_, rfl,
    (UnchangedBut.setReg s x _).trans (.countDraw _)⟩
  rw [countDraw_reg, setReg_reg_same, BitVec.getLsbD_and, State.randomByte]

end Sys2Proof.Machine
end

section
/-! The index register and memory transfers (42_index_memory.md R84 to R89): the three writes of I, and the three
transfers by one rule for a range that ends inside memory or leaves it. -/

namespace Sys2Proof.Machine

/-! ## Writes of the index register -/

/-- The last glyph address is 0x050 + 5·15, which 16 bits hold. -/
theorem glyphAddr_toNat (b : Byte) : (glyphAddr b).toNat = 0x050 + 5 * (b.toNat % 16) := by
  simp only [glyphAddr, fontBase, glyphBytes, BitVec.toNat_ofNat]
  omega

theorem exec_setIndex {i : Instr} {s : State} {w : Word} {n : Nat} (h : exec i s = .next (s.setIndex w))
    (hw : w.toNat = n) : ∃ t, exec i s = .next t ∧ t.index.toNat = n ∧ UnchangedBut s t [] [.index] [] :=
  ⟨_, h, hw, .setIndex s w⟩

/-- Settles O22: each of the three writes I alone (R84 to R86). -/
theorem indexLoadAddAndGlyph : Obligations.IndexLoadAddAndGlyph := by
  intro x nnn s
  have hsum : (s.index + zextByte (s.reg x)).toNat = (s.index.toNat + (s.reg x).toNat) % 65536 := by
    rw [BitVec.toNat_add, zextByte_toNat]
  exact ⟨decodeWord_encode (i := .ldI nnn) rfl, decodeWord_encode (i := .addI x) rfl,
    decodeWord_encode (i := .ldF x) rfl, exec_setIndex rfl (zextAddr_toNat nnn), exec_setIndex rfl hsum,
    exec_setIndex rfl (glyphAddr_toNat (s.reg x))⟩

/-! ## A transfer answers by where its range ends -/

/-- From what the three transfers can answer (`execLdB_eq_next`, `execStRegs_eq_next`, `execLdRegs_eq_next`), with e the
last address of the range: u inside memory, and past it R102's record of a fetch from a. -/
theorem exec_byRangeEnd {i : Instr} {s t u : State} {a : Word} {e : Nat} {cause : FaultCause} {info : Option Nat}
    {P : State → Prop} (hpc : s.pc = a + 2) (ht : exec i s = .next t)
    (hcases : e < 4096 ∧ t = u ∨ e ≥ 4096 ∧ t = s.takeFault
      { cause := cause, instrAddr := s.pc - 2, word := some (encode i), info := info })
    (hu : e < 4096 → P u) :
    (e ≤ 4095 → ∃ t, exec i s = .next t ∧ P t) ∧
    (e > 4095 → ∃ t, exec i s = .next t ∧
      t.fault = some { cause := cause, instrAddr := a, word := some (encode i), info := info } ∧
      UnchangedBut s t [] [.fault] []) := by
  obtain ⟨he, rfl⟩ | ⟨he, rfl⟩ := hcases
  · exact ⟨fun _ => ⟨_, ht, hu he⟩, fun h => absurd he (by omega)⟩
  · exact ⟨fun h => absurd he (by omega),
      fun _ => ⟨_, ht.trans (raise_next s i cause info hpc), rfl, .takeFault s _⟩⟩

/-! ## Stores -/

/-- Byte k of a stored range. -/
theorem readByte_stored {s : State} (hm : Memory.wf s.cfg.font s.mem) {a k : Nat} {bs : List Byte}
    (h : a + bs.length ≤ 4096) (hk : k < bs.length) :
    State.readByte { s with mem := Memory.writeBytes s.cfg.font s.mem a bs } (a + k) = bs[k] := by
  rw [readByte_writeBytes hm (.inr h), if_pos (Nat.le_add_right ..), Nat.add_sub_cancel_left,
    List.getD_eq_getElem _ _ hk]

theorem byteOfNat_toNat {n : Nat} (h : n < 256) : (BitVec.ofNat 8 n).toNat = n := by
  rw [BitVec.toNat_ofNat, Nat.mod_eq_of_lt h]

/-- Settles O23, by where the three bytes end (R87): each digit is below 256, so its byte holds it. -/
theorem bcdStoresThreeDigits : Obligations.BcdStoresThreeDigits := by
  intro x s a hpc hm
  obtain ⟨t, ht⟩ := exec_answers_next (.ldB x) s
  refine ⟨decodeWord_encode (i := .ldB x) rfl, exec_byRangeEnd hpc ht (execLdB_eq_next ht)
    fun (h : s.dataAddr + 2 < 4096) => ?_⟩
  have hIn : s.dataAddr + (bcdDigits (s.reg x)).length ≤ 4096 := by rw [bcdDigits_length]; omega
  have hbyte {k : Nat} (hk : k < 3) := congrArg BitVec.toNat (readByte_stored hm hIn hk)
  have hlt := (s.reg x).isLt
  exact ⟨(hbyte (k := 0) (by decide)).trans (byteOfNat_toNat (by omega)),
    (hbyte (k := 1) (by decide)).trans (byteOfNat_toNat (by omega)),
    (hbyte (k := 2) (by decide)).trans (byteOfNat_toNat (by omega)), .writeBytes hm (.inr hIn)⟩

/-- Settles O24, by where the stored registers end (R88). -/
theorem storeRegistersWritesVxBytes : Obligations.StoreRegistersWritesVxBytes := by
  intro x s a hpc hm
  obtain ⟨t, ht⟩ := exec_answers_next (.stRegs x) s
  refine ⟨decodeWord_encode (i := .stRegs x) rfl, exec_byRangeEnd hpc ht (execStRegs_eq_next ht)
    fun (h : s.dataAddr + x < 4096) => ⟨fun r hr => readByte_regsStored hm h hr, ?_⟩⟩
  have hframe := UnchangedBut.writeBytes hm (a := s.dataAddr) (bs := s.regsUpTo x)
    (.inr (by rw [regsUpTo_length]; omega))
  rwa [regsUpTo_length] at hframe

/-! ## Loads -/

theorem not_mem_destinationRegs_ldRegs {x r : Reg} : r ∉ destinationRegs (.ldRegs x) ↔ x < r := by
  simp [destinationRegs]

/-- Settles O25, by where the loaded bytes end (R89). -/
theorem loadRegistersReadsVxBytes : Obligations.LoadRegistersReadsVxBytes := by
  intro x s a hpc
  obtain ⟨t, ht⟩ := exec_answers_next (.ldRegs x) s
  refine ⟨decodeWord_encode (i := .ldRegs x) rfl, exec_byRangeEnd hpc ht (execLdRegs_eq_next ht) fun _ => ?_⟩
  have hframe := UnchangedBut.setRegs s ((List.range (x + 1)).map fun k => s.readByte (s.dataAddr + k))
    (destinationRegs (.ldRegs x)) fun r hr => by
      rw [List.length_map, List.length_range]
      exact not_mem_destinationRegs_ldRegs.1 hr
  refine ⟨fun r hr => ?_, hframe, fun r hr => hframe.regs_same r (not_mem_destinationRegs_ldRegs.2 hr)⟩
  rw [setRegs_reg, getD_loaded _ _ (Nat.lt_succ_of_le hr)]

end Sys2Proof.Machine
end

section
/-! Clear and sprite draw (43_display.md R92 to R94): what the two answer, the same drawing done twice, and the frame of
every other transition on the framebuffer. -/

namespace Sys2Proof.Machine

/-! ## Clear -/

/-- Settles O28: the answer is the blank framebuffer drawn, and its frame is that of the drawing (R92). -/
theorem clearTurnsEveryPixelOff : Obligations.ClearTurnsEveryPixelOff := fun s =>
  ⟨decodeWord_encode (i := .cls) rfl, _, rfl, pixel_blank, rfl, .drawScreen s _⟩

/-! ## The rest keeps the framebuffer -/

theorem fb_mem_writtenParts {i : Instr} : .fb ∈ writtenParts i ↔ i = .cls ∨ ∃ x y n, i = .drw x y n := by
  cases i <;> simp [writtenParts]

@[simp] theorem tick_fb (s : State) : s.tick.fb = s.fb := by
  unfold State.tick; split <;> rfl

@[simp] theorem load_fb (s : State) (bytes : List Byte) : (s.load bytes).fb = s.fb := by
  unfold State.load; split <;> rfl

@[simp] theorem setKey_fb (s : State) (k : Int) (p : Bool) : (s.setKey k p).fb = s.fb := by
  unfold State.setKey; split <;> rfl

/-- Settles O32, from the framebuffer part of the frame of `exec` and from the host transitions' own lemmas (R94). -/
theorem onlyClearAndDrawChangeTheScreen : Obligations.OnlyClearAndDrawChangeTheScreen := by
  refine ⟨fun i s t h hCls hDrw => (exec_frame h).fb_same ?_, fun s => ⟨tick_fb s, load_fb s, setKey_fb s, rfl⟩⟩
  simp [fb_mem_writtenParts, hCls, hDrw]

/-! ## One draw -/

/-- The pixels that Dxyn hits: the sprite of n rows at M[I], drawn at (V[x], V[y]). -/
abbrev State.DrawHits (s : State) (x y : Reg) (n : Nibble) : Fin 64 → Fin 32 → Prop :=
  SpriteHits (s.reg x).toNat (s.reg y).toNat n.toNat (fun r => s.readByte (s.dataAddr + r))

/-- The machine after a finished drawing: VF holds its collision, and its framebuffer is shown. -/
def State.drawn (s : State) (d : Drawing) : State := (s.setFlag (collisionFlag d.2)).drawScreen d.1

/-- The rows past the height of a sprite do not matter. -/
theorem SpriteHits.congr_rows {cx cy h : Nat} {f g : Nat → Byte} (hfg : ∀ r < h, f r = g r) (px : Fin 64)
    (py : Fin 32) : SpriteHits cx cy h f px py ↔ SpriteHits cx cy h g px py :=
  exists_congr fun r => exists_congr fun _ => and_congr_right fun hr => by rw [hfg r hr]

section
variable {x y : Reg} {n : Nibble} {s : State}

/-- With its rows inside memory, Dxyn draws the pixels it hits. -/
theorem exec_drw_inside (h : n.toNat = 0 ∨ s.index.toNat + n.toNat - 1 ≤ 4095) :
    ∃ d, Draws (s.DrawHits x y n) (s.fb, false) d ∧ exec (.drw x y n) s = .next (s.drawn d) := by
  have hIn : countOf n = 0 ∨ s.dataAddr + countOf n ≤ 4096 := by simp only [countOf, State.dataAddr]; omega
  have hn := n.isLt
  have hlen : ((List.range (countOf n)).map fun k => s.readByte (s.dataAddr + k)).length = n.toNat := by
    rw [List.length_map, List.length_range, countOf]
  have hDraws := drawSprite_draws (s.reg x).toNat (s.reg y).toNat _ s.fb (hlen.trans_le (by omega))
  rw [hlen] at hDraws
  refine ⟨_, hDraws.congr (SpriteHits.congr_rows fun r hr => getD_loaded _ _ hr 0), ?_⟩
  show execDrw x y n s = _
  rw [execDrw, loadBytes_inside s hIn]
  rfl

/-- With a row outside memory, Dxyn raises. -/
theorem exec_drw_outside (h₀ : n.toNat > 0) (h : s.index.toNat + n.toNat - 1 > 4095) :
    exec (.drw x y n) s = s.raise (.drw x y n) .loadOutOfBounds (some (max s.index.toNat 4096)) := by
  have hOut : ¬(countOf n = 0 ∨ s.dataAddr + countOf n ≤ 4096) := by simp only [countOf, State.dataAddr]; omega
  show execDrw x y n s = _
  rw [execDrw, loadBytes_outside s hOut]
  rfl

theorem drawn_flag (d : Drawing) : (s.drawn d).reg VF = collisionFlag d.2 := setReg_reg_same s VF _

theorem drawn_reg_other (d : Drawing) {r : Reg} (h : r ≠ VF) : (s.drawn d).reg r = s.reg r :=
  setReg_reg_other s _ h

theorem drawn_frame (d : Drawing) : UnchangedBut s (s.drawn d) [VF] [.fb, .dirty] [] :=
  (UnchangedBut.setReg s VF _).trans (.drawScreen _ d.1)

end

theorem collisionFlag_eq_one {c : Bool} : collisionFlag c = 1 ↔ c = true := by cases c <;> decide

theorem collisionFlag_eq_zero {c : Bool} : collisionFlag c = 0 ↔ c = false := by cases c <;> decide

/-- A drawing begun without a collision ends with one exactly when a hit pixel was on. -/
theorem Draws.collides_iff {hits : Fin 64 → Fin 32 → Prop} {fb : Framebuffer} {d : Drawing}
    (h : Draws hits (fb, false) d) :
    d.2 = true ↔ ∃ px py, hits px py ∧ Framebuffer.pixel fb px py = true := by
  simpa using h.collision

/-- Settles O29: inside memory by what a drawing does to each pixel and to the collision, outside by R102's record
(R93). -/
theorem drawFlipsExactlyTheHitPixels : Obligations.DrawFlipsExactlyTheHitPixels := by
  intro x y n s a hpc
  refine ⟨decodeWord_encode (i := .drw x y n) rfl, fun h => ?_, fun h₀ h => ?_⟩
  · obtain ⟨d, hd, hexec⟩ := exec_drw_inside (x := x) (y := y) h
    refine ⟨_, hexec, hd.hit, hd.missed, fun hOn => ?_, fun hOff => ?_, rfl, drawn_frame d⟩
    · rw [drawn_flag, collisionFlag_eq_one, hd.collides_iff]
      exact hOn
    · rw [drawn_flag, collisionFlag_eq_zero, ← Bool.not_eq_true, hd.collides_iff]
      rintro ⟨px, py, hHit, hOn⟩
      exact Bool.false_ne_true ((hOff px py hHit).symm.trans hOn)
  · exact ⟨_, (exec_drw_outside h₀ h).trans (raise_next s _ _ _ hpc), rfl, .takeFault s _⟩

/-! ## The same draw twice -/

section
variable {hits : Fin 64 → Fin 32 → Prop} {fb : Framebuffer} {d e : Drawing}

/-- A set of pixels inverted twice is as it was. -/
theorem Draws.twice_pixel (hd : Draws hits (fb, false) d) (he : Draws hits (d.1, false) e) (px : Fin 64)
    (py : Fin 32) : Framebuffer.pixel e.1 px py = Framebuffer.pixel fb px py := by
  by_cases h : hits px py
  · rw [he.hit px py h, hd.hit px py h, Bool.not_not]
  · rw [he.missed px py h, hd.missed px py h]

/-- The second drawing meets the pixels that the first turned on: those that were off before both. -/
theorem Draws.twice_collides_iff (hd : Draws hits (fb, false) d) (he : Draws hits (d.1, false) e) :
    e.2 = true ↔ ∃ px py, hits px py ∧ Framebuffer.pixel fb px py = false := by
  rw [he.collides_iff]
  refine exists_congr fun px => exists_congr fun py => and_congr_right fun h => ?_
  rw [hd.hit px py h, Bool.not_eq_true']

end

/-- A draw moves neither its sprite nor, unless V[x] or V[y] is VF, its place. -/
theorem drawn_drawHits {x y : Reg} (hx : x ≠ VF) (hy : y ≠ VF) (n : Nibble) (s : State) (d : Drawing) :
    (s.drawn d).DrawHits x y n = s.DrawHits x y n := by
  unfold State.DrawHits
  rw [drawn_reg_other d hx, drawn_reg_other d hy]
  rfl

/-- Settles O30: the second draw hits the same pixels as the first. -/
theorem drawingTwiceRestoresTheScreen : Obligations.DrawingTwiceRestoresTheScreen := by
  intro x y n s hx hy h
  obtain ⟨d, hd, hFirst⟩ := exec_drw_inside (x := x) (y := y) h
  obtain ⟨e, he, hSecond⟩ := exec_drw_inside (x := x) (y := y) (s := s.drawn d) h
  rw [drawn_drawHits hx hy] at he
  refine ⟨_, _, hFirst, hSecond, hd.twice_pixel he, ?_⟩
  rw [drawn_flag, collisionFlag_eq_one]
  exact hd.twice_collides_iff he

/-- The reset machine with every pixel on and I at the font's first byte, 0xF0. -/
def litScreen : State :=
  { State.reset with index := 0x050, fb := Vector.replicate 32 (Vector.replicate 64 true) }

theorem litScreen_pixel (px : Fin 64) (py : Fin 32) : litScreen.pixel px py = true := by
  simp [State.pixel, Framebuffer.pixel, litScreen]

/-- Refutes O31: D011 twice on `litScreen`. The sprite row 0xF0 has a set bit, but no pixel was off before, so the
second draw reports no collision (O30; log 13). -/
theorem not_secondDrawReportsEverySetBit : ¬ Obligations.SecondDrawReportsEverySetBit := by
  intro hRemark
  have hx : (0 : Reg) ≠ VF := by decide
  have hy : (1 : Reg) ≠ VF := by decide
  have hIn : (1 : Nibble).toNat = 0 ∨ litScreen.index.toNat + (1 : Nibble).toNat - 1 ≤ 4095 := by decide
  obtain ⟨t, u, hFirst, hSecond, -, hFlag⟩ := drawingTwiceRestoresTheScreen 0 1 1 litScreen hx hy hIn
  have hBit : (litScreen.readByte (litScreen.dataAddr + 0)).getLsbD (7 - 0) = true := by decide
  have hOne : u.reg VF = 1 :=
    (hRemark 0 1 1 litScreen t u hx hy rfl hIn hFirst hSecond).2 ⟨0, 0, by decide, by decide, hBit⟩
  obtain ⟨px, py, -, hOff⟩ := hFlag.1 hOne
  exact Bool.false_ne_true (hOff.symm.trans (litScreen_pixel px py))

end Sys2Proof.Machine
end

section
/-! Timer access and key input (44_timers_keys.md R95 to R100): the timer reads and writes, the key skips by the key
that V[x] names, and the key wait by the first pressed key. -/

namespace Sys2Proof.Machine

/-- The sound output of R111. -/
theorem soundOn_iff {s : State} : s.soundOn = true ↔ s.st.toNat > 0 := decide_eq_true_iff

/-- Settles O33: each of the three writes one register or one timer (R95 to R97). -/
theorem timerReadsAndWrites : Obligations.TimerReadsAndWrites := fun x s =>
  ⟨decodeWord_encode (i := .ldVxDt x) rfl, decodeWord_encode (i := .ldDtVx x) rfl,
    decodeWord_encode (i := .ldStVx x) rfl, exec_setReg rfl, ⟨_, rfl, rfl, .setDt s _⟩,
    ⟨_, rfl, rfl, soundOn_iff, .setSt s _⟩⟩

section
variable {s : State} {x : Reg}

/-! ## The key skips -/

theorem exec_skp_of_key {k : Reg} (h : (s.reg x).toNat = k) : exec (.skp x) s = .next (s.skipIf s.key[k]) := by
  show execSkp x s = _
  rw [execSkp, keyOf_inside h]

theorem exec_sknp_of_key {k : Reg} (h : (s.reg x).toNat = k) : exec (.sknp x) s = .next (s.skipIf !s.key[k]) := by
  show execSknp x s = _
  rw [execSknp, keyOf_inside h]

theorem exec_skp_of_outside (h : (s.reg x).toNat > 15) :
    exec (.skp x) s = s.raise (.skp x) .keyIndexOutOfRange (some (s.reg x).toNat) := by
  show execSkp x s = _
  rw [execSkp, keyOf_outside h]

theorem exec_sknp_of_outside (h : (s.reg x).toNat > 15) :
    exec (.sknp x) s = s.raise (.sknp x) .keyIndexOutOfRange (some (s.reg x).toNat) := by
  show execSknp x s = _
  rw [execSknp, keyOf_outside h]

/-! ## The key wait -/

theorem exec_ldVxK_of_firstKey {k : Reg} (h : s.firstKey = some k) :
    exec (.ldVxK x) s = .next (s.setReg x (BitVec.ofNat 8 k)) := by
  show execLdVxK x s = _
  rw [execLdVxK, h]

theorem exec_ldVxK_of_released (h : ∀ k : Reg, s.key[k] = false) : exec (.ldVxK x) s = .next s.rewindPc := by
  show execLdVxK x s = _
  rw [execLdVxK, firstKey_none s h]

end

/-- The wait's rewind takes back the fetch's advance. -/
theorem rewindPc_advancePc (s : State) : s.advancePc.rewindPc = s := by
  have hpc : s.advancePc.pc - 2 = s.pc := BitVec.add_sub_cancel s.pc 2
  rw [State.rewindPc, hpc]
  rfl

/-- Settles O34: below 16 by the latch entry that V[x] names, above 15 by R102's record (R98, R99). -/
theorem keySkipsTestTheLatch : Obligations.KeySkipsTestTheLatch := by
  intro x s a hpc
  refine ⟨decodeWord_encode (i := .skp x) rfl, decodeWord_encode (i := .sknp x) rfl, fun k hk => ?_, fun k hk => ?_,
    fun h => ⟨?_, ?_⟩⟩
  · exact exec_skips (exec_skp_of_key hk) id id
  · exact exec_skips (exec_sknp_of_key hk) (congrArg not) (congrArg not)
  · exact ⟨_, (exec_skp_of_outside h).trans (raise_next s _ _ _ hpc), rfl, .takeFault s _⟩
  · exact ⟨_, (exec_sknp_of_outside h).trans (raise_next s _ _ _ hpc), rfl, .takeFault s _⟩

/-- Settles O35, by what the scan of the keys finds (R100): a key index is below 16, so its byte holds it. -/
theorem keyWaitTakesTheLeastKeyOrReissues : Obligations.KeyWaitTakesTheLeastKeyOrReissues := by
  intro x s a hpc
  refine ⟨decodeWord_encode (i := .ldVxK x) rfl, fun k hk hlt => ?_, fun h => ?_⟩
  · obtain ⟨t, ht, hx, hframe⟩ := exec_setReg (exec_ldVxK_of_firstKey (x := x) (firstKey_least s hk hlt))
    exact ⟨t, ht, by rw [hx, byteOfNat_toNat (by omega)], hframe⟩
  · have hrewind : s.rewindPc.pc = a := by rw [rewindPc_pc, hpc, BitVec.add_sub_cancel]
    exact ⟨_, exec_ldVxK_of_released h, hrewind, .setPc s _⟩

/-- Settles O36: the fetch advances pc, and the wait sets it back (R100, S7). -/
theorem waitingForAKeyChangesNothing : Obligations.WaitingForAKeyChangesNothing := by
  intro x s hRunning hWord hReleased
  have hDecode : decodeWord (formatB 0xF x 0x0A) = .ldVxK x := decodeWord_encode (i := .ldVxK x) rfl
  rw [step_running s hRunning hWord, hDecode, exec_ldVxK_of_released (s := s.advancePc) hReleased, rewindPc_advancePc]

end Sys2Proof.Machine
end

section
/-! The host's transitions (60_exceptions.md R110, R113 to R117): what tick, load, set_key and read_framebuffer answer
with and without a fault record, each with its frame. -/

namespace Sys2Proof.Machine

/-- Settles O53: the single transition by its five kinds, the reachable states by induction on how they are reached. -/
theorem everyTransitionKeepsTheInvariant : Obligations.EveryTransitionKeepsTheInvariant :=
  ⟨fun _ _ => transition_keeps_inv, fun _ => reachable_inv⟩

/-! ## Frames of the input latch and of DIRTY -/

theorem UnchangedBut.setLatch (s : State) (l : Vector Bool 16) : UnchangedBut s { s with key := l } [] [.key] [] :=
  { UnchangedBut.refl s [] [.key] [] with key_same := fun h => absurd (List.mem_singleton.2 rfl) h }

theorem UnchangedBut.setDirty (s : State) (b : Bool) : UnchangedBut s { s with dirty := b } [] [.dirty] [] :=
  { UnchangedBut.refl s [] [.dirty] [] with dirty_same := fun h => absurd (List.mem_singleton.2 rfl) h }

section
variable {s : State}

/-! ## tick -/

theorem tick_of_fault (h : s.fault ≠ none) : s.tick = s := if_pos (Option.isSome_iff_ne_none.2 h)

theorem tick_of_no_fault (h : s.fault = none) : s.tick = (s.setDt (decrement s.dt)).setSt (decrement s.st) :=
  if_neg (by simp [h])

/-- What a tick does to a machine without a record (R110). -/
theorem tick_counts_down (h : s.fault = none) :
    s.tick.dt.toNat = s.dt.toNat - 1 ∧ s.tick.st.toNat = s.st.toNat - 1 ∧
      UnchangedBut s s.tick [] [.dt, .st] [] := by
  rw [tick_of_no_fault h]
  exact ⟨decrement_toNat s.dt, decrement_toNat s.st, (UnchangedBut.setDt s _).trans (.setSt _ _)⟩

/-! ## load -/

theorem load_of_fault (h : s.fault ≠ none) (bytes : List Byte) : s.load bytes = s :=
  if_pos (Option.isSome_iff_ne_none.2 h)

theorem load_of_no_fault (h : s.fault = none) (bytes : List Byte) : s.load bytes =
    ({ s with mem := Memory.writeBytes s.cfg.font s.mem progBase (bytes.take progCapacity) } : State).setPc 0x200 :=
  if_neg (by simp [h])

theorem load_pc (h : s.fault = none) (bytes : List Byte) : (s.load bytes).pc = 0x200 := by
  rw [load_of_no_fault h, setPc_pc]

/-- A load makes a machine without a record running (R107). -/
theorem load_status (h : s.fault = none) (bytes : List Byte) : (s.load bytes).status = .running := by
  have hFault : (s.load bytes).fault = none := by rw [load_of_no_fault h, setPc_fault, h]
  exact (status_running _).2 ⟨hFault, by rw [load_pc h]; decide⟩

theorem progBase_add_loaded_le (bytes : List Byte) : progBase + (bytes.take progCapacity).length ≤ 4096 := by
  rw [List.length_take, progBase, progCapacity]
  omega

/-- The bytes loaded read as the program's (R113). -/
theorem load_readByte (h : s.fault = none) (hm : Memory.wf s.cfg.font s.mem) {bytes : List Byte} {i : Nat} {b : Byte}
    (hi : i < 3584) (hb : bytes[i]? = some b) : (s.load bytes).readByte (0x200 + i) = b := by
  obtain ⟨hLen, rfl⟩ := List.getElem?_eq_some_iff.1 hb
  have hTaken : i < (bytes.take progCapacity).length := by
    rw [List.length_take, progCapacity]
    omega
  rw [load_of_no_fault h, setPc_readByte, readByte_stored hm (progBase_add_loaded_le bytes) hTaken, List.getElem_take]

/-- The frame of a load: pc and the bytes loaded (R113). -/
theorem load_frame (h : s.fault = none) (hm : Memory.wf s.cfg.font s.mem) (bytes : List Byte) :
    UnchangedBut s (s.load bytes) [] [.pc] ((List.range (min bytes.length 3584)).map (0x200 + ·)) := by
  rw [load_of_no_fault h]
  have hStore := UnchangedBut.writeBytes hm (.inr (progBase_add_loaded_le bytes))
  rw [List.length_take, Nat.min_comm] at hStore
  exact (hStore.trans (.setPc _ 0x200)).widen (List.Subset.refl _) (List.Subset.refl _) (by simp)

/-! ## set_key -/

theorem setKey_outside {k : Int} (h : k < 0 ∨ 15 < k) (p : Bool) : s.setKey k p = s := dif_neg (by omega)

/-- The latch after a key event: the entry that the index names, and for an index outside 0 to 15 none (R114). -/
theorem setKey_key (k : Int) (p : Bool) (j : Reg) :
    (s.setKey k p).key[j] = if (j.val : Int) = k then p else s.key[j] := by
  unfold State.setKey
  split
  case isTrue hk =>
    have hIndex : k.toNat = j.val ↔ (j.val : Int) = k := by omega
    simp only [Fin.getElem_fin, Vector.getElem_set, hIndex]
  case isFalse hk => rw [if_neg (by omega)]

theorem setKey_frame (k : Int) (p : Bool) : UnchangedBut s (s.setKey k p) [] [.key] [] := by
  unfold State.setKey
  split
  · exact .setLatch s _
  · exact .refl s _ _ _

/-! ## read_framebuffer -/

theorem readFramebuffer_frame : UnchangedBut s s.readFramebuffer.2 [] [.dirty] [] := .setDirty s false

/-- The view is row-major (R115). -/
theorem frameView_pixel (px : Fin 64) (py : Fin 32) (h : py.val * 64 + px.val < 32 * 64) :
    s.frameView.pixels[py.val * 64 + px.val] = s.pixel px py := by
  have hRow : (py.val * 64 + px.val) / 64 = py := by omega
  have hColumn : (py.val * 64 + px.val) % 64 = px := by omega
  simp only [State.frameView, Vector.getElem_flatten, hRow, hColumn]
  rfl

end

/-! ## The statements -/

/-- Settles O47: inside the bounds by the latch and the frame of a key event, outside by its second case (R114). -/
theorem setKeyWritesOneLatchEntry : Obligations.SetKeyWritesOneLatchEntry := fun _ k p =>
  ⟨fun _ _ => ⟨setKey_key k p, setKey_frame k p⟩, fun h => setKey_outside h p⟩

/-- Settles O44, by whether the machine has a record (R110). -/
theorem tickDecrementsPositiveTimers : Obligations.TickDecrementsPositiveTimers := fun _ =>
  ⟨tick_counts_down, tick_of_fault, soundOn_iff⟩

/-- Settles O45, by induction on the number of ticks: the ticks so far have left no record, so one more counts down. -/
theorem ticksCountDownToZero : Obligations.TicksCountDownToZero := by
  intro n s hf
  induction n with
  | zero => exact ⟨rfl, rfl, .refl s _ _ _⟩
  | succ n ih =>
    obtain ⟨hdt, hst, hframe⟩ := ih
    have hNoFault : (State.tick^[n] s).fault = none := (hframe.fault_same (by decide)).trans hf
    obtain ⟨hdt', hst', hframe'⟩ := tick_counts_down hNoFault
    rw [Function.iterate_succ_apply']
    exact ⟨by omega, by omega, (hframe.trans hframe').widen (by simp) (by simp) (by simp)⟩

/-- Settles O46, by whether the machine has a record (R113). -/
theorem loadCopiesAndTruncates : Obligations.LoadCopiesAndTruncates := by
  intro s bytes hm
  exact ⟨fun h => ⟨fun _ _ => load_readByte h hm, load_pc h bytes, load_frame h hm bytes⟩,
    fun h => load_of_fault h bytes⟩

/-- Settles O48: the view by its row-major order, the state by the frame of DIRTY (R115). -/
theorem readFramebufferReturnsTheRowMajorView : Obligations.ReadFramebufferReturnsTheRowMajorView := fun _ =>
  ⟨frameView_pixel, rfl, rfl, rfl, readFramebuffer_frame⟩

/-- Settles O43: the step by its stopped case, the host's transitions by what each does without a record (R107). -/
theorem haltedMachineWaitsForLoad : Obligations.HaltedMachineWaitsForLoad := by
  intro s hf hp
  have hHalted := (status_halted s).2 ⟨hf, hp⟩
  obtain ⟨hdt, hst, hTick⟩ := tick_counts_down hf
  refine ⟨hHalted, step_stopped s (by simp [hHalted]), hdt, hst, hTick,
    fun k p => ⟨setKey_key k p, setKey_frame k p⟩, rfl, rfl, readFramebuffer_frame, fun bytes => ?_⟩
  refine ⟨load_status hf bytes, load_pc hf bytes, ?_⟩
  have hMemory := fun hm => (load_frame hf hm bytes).memory_same
  rw [load_of_no_fault hf] at hMemory ⊢
  exact ⟨rfl, rfl, rfl, rfl, rfl, rfl, rfl, rfl, rfl, rfl, hMemory⟩

end Sys2Proof.Machine
end

section
/-! Fatal stops (60_exceptions.md R101 to R105): which condition of R101's table a running machine's step meets, the
record it leaves, and that no transition clears it. -/

namespace Sys2Proof.Machine

section
variable {i : Instr} {s t : State}

/-- Where a condition of R101's table holds, the execution answers R102's record and nothing else. -/
theorem exec_of_faultCondition {c : FaultCause} {f : Option Nat} (h : exec i s = .next t)
    (hc : faultCondition i s = some (c, f)) :
    t = s.takeFault { cause := c, instrAddr := s.pc - 2, word := some (encode i), info := f } := by
  obtain ⟨hc'⟩ | ⟨hn, -, -⟩ := exec_answers h
  · cases hc'.symm.trans hc
    rfl
  · exact absurd (hn.symm.trans hc) nofun

/-- Where no condition of R101's table holds, the execution raises nothing. -/
theorem exec_fault_same (h : exec i s = .next t) (hc : faultCondition i s = none) : t.fault = s.fault := by
  obtain ⟨hc'⟩ | ⟨-, frame, -⟩ := exec_answers h
  · exact absurd (hc.symm.trans hc') nofun
  · exact frame.fault_same fault_not_mem_writtenParts

end

/-- No condition of R101's table reads pc. -/
theorem faultCondition_advancePc (i : Instr) (s : State) : faultCondition i s.advancePc = faultCondition i s := rfl

theorem UnchangedBut.advanceThenFault (s : State) (r : FaultRecord) :
    UnchangedBut s (s.advancePc.takeFault r) [] [.fault, .pc] [] :=
  ((UnchangedBut.setPc s _).trans (.takeFault _ r)).widen (List.nil_subset _) (by simp) (List.nil_subset _)

/-- Settles O41, by the two ways a running machine steps: the fetch fault at 4095, and below it the decoded word, which
is the word that the record's instruction encodes to (O2). -/
theorem faultsAreExactlyThoseOfTheTable : Obligations.FaultsAreExactlyThoseOfTheTable := by
  refine ⟨⟨rfl, rfl, rfl, rfl, rfl, rfl⟩, fun s hrun => ?_⟩
  obtain ⟨hne, -⟩ | ⟨-, hp, hstep⟩ | ⟨-, hp, w, hw, hstep⟩ := step_cases s
  · exact absurd hrun hne
  · exact ⟨_, hstep, fun _ => ⟨rfl, .takeFault s _⟩, fun _ hlt => absurd hp hlt.ne⟩
  · obtain ⟨t, ht⟩ := exec_answers_next (decodeWord w) s.advancePc
    refine ⟨t, hstep.trans ht, fun h => absurd h hp.ne, ?_⟩
    rintro w' - rfl
    rw [← (fetchWord_some s hw).2, ← faultCondition_advancePc]
    refine ⟨fun c f hc => ?_, fun hc => (exec_fault_same ht hc).trans ((status_running s).1 hrun).1⟩
    rw [exec_of_faultCondition ht hc, encode_decodeWord, advancePc_pc, BitVec.add_sub_cancel]
    exact ⟨rfl, rfl, .advanceThenFault s _⟩

/-- No transition touches a fault record (R105). -/
theorem transition_keeps_fault {s t : State} (hf : s.fault ≠ none) (h : Transition s t) : t.fault = s.fault := by
  cases h with
  | step h =>
    rw [step_stopped s (by simp [(status_fatal s).2 hf])] at h
    exact Host.Outcome.next.inj h ▸ rfl
  | tick => rw [tick_of_fault hf]
  | load bytes => rw [load_of_fault hf]
  | setKey k p => exact (setKey_frame k p).fault_same (by decide)
  | readFramebuffer => exact readFramebuffer_frame.fault_same (by decide)

/-- Settles O42: step, tick and load by their fatal cases, the presenter's and the keys' transitions by their frames. -/
theorem fatalMachineStaysFatal : Obligations.FatalMachineStaysFatal := by
  intro s r hr
  have hf : s.fault ≠ none := by simp [hr]
  have hFatal := (status_fatal s).2 hf
  exact ⟨hFatal, step_stopped s (by simp [hFatal]), tick_of_fault hf, load_of_fault hf,
    fun k p => ⟨setKey_key k p, setKey_frame k p⟩, rfl, rfl, readFramebuffer_frame,
    fun t h => (transition_keeps_fault hf h).trans hr⟩

end Sys2Proof.Machine
end

section
/-! The reset values (70_reset_and_hazards.md R124): what a constructed machine's registers, keys, pixels and the memory
outside the font region read as. -/

namespace Sys2Proof.Machine

/-! ## The arrays of a constructed machine -/

@[simp] theorem construct_reg (cfg : Config) (r : Reg) : (State.construct cfg).reg r = 0 :=
  Vector.getElem_replicate r.isLt

theorem construct_key (cfg : Config) (k : Reg) : (State.construct cfg).key[k] = false :=
  Vector.getElem_replicate k.isLt

@[simp] theorem construct_pixel (cfg : Config) (px : Fin 64) (py : Fin 32) :
    (State.construct cfg).pixel px py = false :=
  pixel_blank px py

/-! ## Memory outside the font region -/

/-- Outside 0x050 to 0x09F an unlisted address reads as zero (10_state.md R22). -/
theorem unlistedByte_outside_font (font : Font) {a : Nat} (h : a < 0x050 ∨ 0x09F < a) : unlistedByte font a = 0 := by
  have hOutside : ¬(fontBase ≤ a ∧ a < fontBase + fontBytes) := by
    simp only [fontBase, fontBytes]; omega
  rw [unlistedByte, dif_neg hOutside]

/-- Settles O49: the arrays by their laws, memory by whether the address lies in the font region. -/
theorem constructionLeavesTheStatedValues : Obligations.ConstructionLeavesTheStatedValues := fun cfg =>
  ⟨construct_reg cfg, rfl, rfl, rfl, rfl, rfl, fun _ h => construct_readByte_font cfg h,
    fun _ h => unlistedByte_outside_font cfg.font h, construct_pixel cfg, rfl, construct_key cfg, rfl⟩

end Sys2Proof.Machine
end
